-- ==== Sys2Proof/Word.lean ====
section
/-! DEFINITION. Word types. A `Word` is a 64-bit operand or value word of a packet (R52 of 30_encoding.md) and holds
a register's local value, zero-extended (R63); a `Byte` is one byte of a transport buffer (R6 of 00_scope.md). -/

namespace Sys2Proof

/-- One byte of a device-format byte list (R6, R8 of 00_scope.md). -/
abbrev Byte := BitVec 8

/-- A 64-bit word: an operand word, a value word, or a local value of at most `BW` bits, zero-extended (R52, R63 of
30_encoding.md). -/
abbrev Word := BitVec 64

end Sys2Proof
end

