-- ==== Sys2Proof/Config.lean ====
section
/-! DEFINITION. Configuration: the parameters of R5 of 00_scope.md and the instance constants of R11 to R13 of
10_state.md, as plain data, and the free value of the model. -/

namespace Sys2Proof

/-- A byte order of a host or of a wire (R5 of 00_scope.md, R91 of 41_endian.md). -/
inductive Endian where
  | little
  | big
deriving DecidableEq, Repr

/-- `CFG.order`, the device byte order (R11 of 10_state.md). -/
inductive DeviceOrder where
  | native
  | little
  | big
deriving DecidableEq, Repr

/-- The widths the Endian Normalizer is defined on, 1, 2, 3 (irregular), 4 or 8 bytes (R90 of 41_endian.md): the legal
widths of a register that is not a command register, and the legal address widths (R5 of 00_scope.md, D8). -/
inductive Width where
  | w1
  | w2
  | w3
  | w4
  | w8
deriving DecidableEq, Repr

/-- The width in bytes, a plain number (R51 of 30_encoding.md). -/
def Width.bytes : Width → Nat
  | .w1 => 1
  | .w2 => 2
  | .w3 => 3
  | .w4 => 4
  | .w8 => 8

/-- A register descriptor `(address, addressWidth, width)` with a width other than 0 (R8 of 00_scope.md). A command
register, width 0, never has one of these: commands carry its address and address width alone. -/
structure Reg where
  address : Word
  addressWidth : Width
  width : Width
deriving DecidableEq, Repr

/-- What is fixed when one instance is made: the parameters of R5 of 00_scope.md and the constants `CFG.order`,
`CFG.devAddr`, `CFG.memo` (R10 to R13 of 10_state.md). `N_MEMO` is the length of `memo`. -/
structure Cfg where
  hostOrder : Endian
  order : DeviceOrder
  devAddrBits : Nat
  devAddr : Nat
  maxMasks : Nat
  statusBits : Nat
  memo : List Reg
deriving DecidableEq, Repr

/-- The instance that `State.reset` stands for. DESIGN CHOICE (log entry 4, unsafe): the spec leaves every value but
`maxMasks` open; `memo` is the list of the examples of 42_memo.md, the device address that of 95_test_vectors.md. -/
def Cfg.resetInstance : Cfg where
  hostOrder := .little
  order := .little
  devAddrBits := 8
  devAddr := 0x48
  maxMasks := 15
  statusBits := 32
  memo := [⟨0x10, .w1, .w1⟩, ⟨0x20, .w1, .w2⟩, ⟨0x30, .w1, .w3⟩]

/-- FREE VALUE (log entry 9): the status word `ST` of a failed request whose negative status does not fit in 64 bits,
which only a transport with `STATUS_BITS > 64` can answer. R57 of 30_encoding.md gives `sext_64(status)`, which has no
value there. -/
opaque Config.statusWordBeyond64 : Int → Word

end Sys2Proof
end

