-- ==== Sys2Proof/Syntax.lean ====
section
/-! DEFINITION. The abstract commands (R50 of 30_encoding.md), one constructor of `Instr` per row of
spec/opcode_table.json, the pseudo-operations of R65, and the command packet of R51 to R53 that carries a command. -/

namespace Sys2Proof

/-- A mask descriptor's bit range, inclusive at both ends (R8 of 00_scope.md); the register is the command's. -/
structure Mask where
  hi : Nat
  lo : Nat
deriving DecidableEq, Repr

/-- One pair `[hi:lo]=v` of a WRMSK (R50 of 30_encoding.md); `value` is right-aligned (R52). -/
structure Entry where
  mask : Mask
  value : Word
deriving DecidableEq, Repr

/-- The six commands (R50, R54 of 30_encoding.md). -/
inductive Instr where
  /-- RDREG reg: whole-register read (R127 of 43_commands.md). -/
  | rdreg (reg : Reg)
  /-- WRREG reg, v: whole-register write (R128). -/
  | wrreg (reg : Reg) (v : Word)
  /-- WRCMD reg, `width = 0`: write with an empty payload (R129). -/
  | wrcmd (address : Word) (addressWidth : Width)
  /-- RDMSK reg, [hi:lo], ...: bit-field read (R130). -/
  | rdmsk (reg : Reg) (masks : List Mask)
  /-- WRMSK reg, [hi:lo]=v, ...: bit-field write (R131 to R133). -/
  | wrmsk (reg : Reg) (entries : List Entry)
  /-- ISMEMO reg: is the register memoized (R134)? A width of `none` is width 0, a command register. -/
  | ismemo (address : Word) (addressWidth : Width) (width : Option Width)
deriving DecidableEq, Repr

/-- The source's `read(mask)`: RDMSK with one mask (R65 of 30_encoding.md). -/
def Instr.readMask (reg : Reg) (m : Mask) : Instr := .rdmsk reg [m]

/-- The source's `write(mask, fieldValue)`: WRMSK with one pair (R65 of 30_encoding.md). -/
def Instr.writeMask (reg : Reg) (m : Mask) (v : Word) : Instr := .wrmsk reg [⟨m, v⟩]

/-- The register address a command names. -/
def Instr.address : Instr → Word
  | .rdreg reg => reg.address
  | .wrreg reg _ => reg.address
  | .wrcmd address _ => address
  | .rdmsk reg _ => reg.address
  | .wrmsk reg _ => reg.address
  | .ismemo address _ _ => address

/-- The address width a command names. -/
def Instr.addressWidth : Instr → Width
  | .rdreg reg => reg.addressWidth
  | .wrreg reg _ => reg.addressWidth
  | .wrcmd _ addressWidth => addressWidth
  | .rdmsk reg _ => reg.addressWidth
  | .wrmsk reg _ => reg.addressWidth
  | .ismemo _ addressWidth _ => addressWidth

/-- The register width a command names; `none` is width 0. -/
def Instr.width : Instr → Option Width
  | .rdreg reg => some reg.width
  | .wrreg reg _ => some reg.width
  | .wrcmd _ _ => none
  | .rdmsk reg _ => some reg.width
  | .wrmsk reg _ => some reg.width
  | .ismemo _ _ width => width

/-- A command packet: one 32-bit control word, then 64-bit operand words (R51 of 30_encoding.md). -/
structure Packet where
  cw : BitVec 32
  ops : List Word
deriving DecidableEq, Repr

end Sys2Proof
end

