-- ==== Sys2Proof/WellFormed.lean ====
section
/-! DEFINITION. When an abstract command is valid on an instance: checks 5 and 7 to 10 of R60 of 30_encoding.md, on
the abstract command. Checks 1 to 4 and 6 cannot fail on an `Instr`: its constructor fixes the opcode, its width types
the legal widths, its argument list the packet's length. -/

namespace Sys2Proof

/-- A mask is valid on a register of width `w`: `0 <= lo <= hi < 8*W` (R81 of 40_bitfield.md). -/
def Mask.valid (w : Width) (m : Mask) : Bool :=
  decide (m.lo ≤ m.hi) && decide (m.hi < 8 * w.bytes)

/-- An address fits its width: `address < 2^(8*addressWidth)` (check 7, ADDR_RANGE). -/
def addressFits (address : Word) (aw : Width) : Bool :=
  decide (address.toNat < 2 ^ (8 * aw.bytes))

/-- A whole-register value fits the register: `v < 2^(8*W)` (check 9, VALUE_RANGE; R192 of 70_reset_and_hazards.md). -/
def valueFits (v : Word) (w : Width) : Bool :=
  decide (v.toNat < 2 ^ (8 * w.bytes))

/-- A field value fits its field: `v < 2^(hi-lo+1)` (check 9, VALUE_RANGE; R73 of 40_bitfield.md). -/
def Entry.fits (e : Entry) : Bool :=
  decide (e.value.toNat < 2 ^ (e.mask.hi - e.mask.lo + 1))

/-- No memoized register has this address with another shape (check 10, MEMO_MISMATCH; R191 of
70_reset_and_hazards.md). -/
def shapeMatches (cfg : Cfg) (address : Word) (aw : Width) (w : Option Width) : Bool :=
  cfg.memo.all fun m =>
    !decide (m.address = address) || (decide (m.addressWidth = aw) && decide (some m.width = w))

/-- The number of masks is legal: `1 <= NM <= MAX_MASKS` for RDMSK and WRMSK (check 5, BAD_NM). -/
def Instr.countLegal (cfg : Cfg) : Instr → Bool
  | .rdmsk _ masks => decide (1 ≤ masks.length) && decide (masks.length ≤ cfg.maxMasks)
  | .wrmsk _ entries => decide (1 ≤ entries.length) && decide (entries.length ≤ cfg.maxMasks)
  | .rdreg _ => true
  | .wrreg _ _ => true
  | .wrcmd _ _ => true
  | .ismemo _ _ _ => true

/-- Check 7 on a command. -/
def Instr.addressLegal (i : Instr) : Bool := addressFits i.address i.addressWidth

/-- Check 8 on a command: every mask is valid on the register. -/
def Instr.masksLegal : Instr → Bool
  | .rdmsk reg masks => masks.all (Mask.valid reg.width)
  | .wrmsk reg entries => entries.all fun e => e.mask.valid reg.width
  | .rdreg _ => true
  | .wrreg _ _ => true
  | .wrcmd _ _ => true
  | .ismemo _ _ _ => true

/-- Check 9 on a command: every value fits. -/
def Instr.valuesLegal : Instr → Bool
  | .wrreg reg v => valueFits v reg.width
  | .wrmsk _ entries => entries.all Entry.fits
  | .rdreg _ => true
  | .wrcmd _ _ => true
  | .rdmsk _ _ => true
  | .ismemo _ _ _ => true

/-- Check 10 on a command. -/
def Instr.shapeLegal (cfg : Cfg) (i : Instr) : Bool :=
  shapeMatches cfg i.address i.addressWidth i.width

/-- A command that passes every check of R60 on the instance `cfg`. -/
def Instr.wf (cfg : Cfg) (i : Instr) : Bool :=
  i.countLegal cfg && i.addressLegal && i.masksLegal && i.valuesLegal && i.shapeLegal cfg

end Sys2Proof
end

