-- ==== Sys2Proof/Decode.lean ====
section
/-! DEFINITION. Decode and encode of command packets (30_encoding.md). `decode` is total on every packet and rejects
by the ten reasons of R60, in the order of its table; `encode` is written from the same fields. -/

namespace Sys2Proof

/-- The reasons of a `DeclError` (R60 of 30_encoding.md, R164 of 60_exceptions.md). Raised at decode only, by any
command; the command ends with a DECL_ERROR response and changes nothing (R67): safe. -/
inductive DeclError where
  | badOpcode
  | badReserved
  | badWidth
  | badAddrWidth
  | badNm
  | badLength
  | addrRange
  | maskRange
  | valueRange
  | memoMismatch
deriving DecidableEq, Repr

/-- The reason code that `ST` carries (R60). -/
def DeclError.code : DeclError → Nat
  | .badOpcode => 1
  | .badReserved => 2
  | .badWidth => 3
  | .badAddrWidth => 4
  | .badNm => 5
  | .badLength => 6
  | .addrRange => 7
  | .maskRange => 8
  | .valueRange => 9
  | .memoMismatch => 10

/-- What decoding a packet gives: a command or a named rejection (R59). -/
inductive Decoded where
  | accept (i : Instr)
  | reject (e : DeclError)
deriving DecidableEq, Repr

/-- `CW[31:28]` (R51). -/
def Packet.opc (p : Packet) : BitVec 4 := p.cw.extractLsb' 28 4
/-- `CW[27:24]`, the register width in bytes (R51). -/
def Packet.w (p : Packet) : BitVec 4 := p.cw.extractLsb' 24 4
/-- `CW[23:20]`, the address width in bytes (R51). -/
def Packet.aw (p : Packet) : BitVec 4 := p.cw.extractLsb' 20 4
/-- `CW[19:16]`, the number of masks (R51). -/
def Packet.nm (p : Packet) : BitVec 4 := p.cw.extractLsb' 16 4
/-- `CW[15:0]`, reserved (R51). -/
def Packet.rsv (p : Packet) : BitVec 16 := p.cw.extractLsb' 0 16

/-- The assigned opcodes of R54. -/
inductive Opcode where
  | rdreg
  | wrreg
  | wrcmd
  | rdmsk
  | wrmsk
  | ismemo
deriving DecidableEq, Repr

/-- The opcode map of R54; every other number is reserved (R61). -/
def Opcode.ofField (b : BitVec 4) : Option Opcode :=
  match b.toNat with
  | 1 => some .rdreg
  | 2 => some .wrreg
  | 3 => some .wrcmd
  | 4 => some .rdmsk
  | 5 => some .wrmsk
  | 6 => some .ismemo
  | _ => none

/-- The number of an opcode (R54). -/
def Opcode.field : Opcode → BitVec 4
  | .rdreg => 1
  | .wrreg => 2
  | .wrcmd => 3
  | .rdmsk => 4
  | .wrmsk => 5
  | .ismemo => 6

/-- A width field, a plain number, as a width of the normalizer's domain (R51, R54). -/
def Width.ofField (b : BitVec 4) : Option Width :=
  match b.toNat with
  | 1 => some .w1
  | 2 => some .w2
  | 3 => some .w3
  | 4 => some .w4
  | 8 => some .w8
  | _ => none

/-- A width as the number in its field. -/
def Width.field (w : Width) : BitVec 4 := BitVec.ofNat 4 w.bytes

/-- A register-width field as a width or 0 (`none`), if it is one of 0, 1, 2, 3, 4, 8. -/
def anyWidthOfField (b : BitVec 4) : Option (Option Width) :=
  if b = 0 then some none else (Width.ofField b).map some

/-- The `W` column of R54: which width fields an opcode allows, and the width they mean. -/
def Opcode.widthOf (op : Opcode) (b : BitVec 4) : Option (Option Width) :=
  match op with
  | .rdreg => (Width.ofField b).map some
  | .wrreg => (Width.ofField b).map some
  | .wrcmd => if b = 0 then some none else none
  | .rdmsk => (Width.ofField b).map some
  | .wrmsk => (Width.ofField b).map some
  | .ismemo => anyWidthOfField b

/-- The `NM` column of R54. -/
def Opcode.countAllowed (op : Opcode) (cfg : Cfg) (nm : BitVec 4) : Bool :=
  match op with
  | .rdreg => decide (nm = 0)
  | .wrreg => decide (nm = 0)
  | .wrcmd => decide (nm = 0)
  | .rdmsk => decide (1 ≤ nm.toNat) && decide (nm.toNat ≤ cfg.maxMasks)
  | .wrmsk => decide (1 ≤ nm.toNat) && decide (nm.toNat ≤ cfg.maxMasks)
  | .ismemo => decide (nm = 0)

/-- The number of operand words that follow `CW` (formats R, V, M, MV of R53), told from `CW` alone (R55). -/
def Opcode.operandWords (op : Opcode) (nm : BitVec 4) : Nat :=
  match op with
  | .rdreg => 1
  | .wrreg => 2
  | .wrcmd => 1
  | .rdmsk => 1 + nm.toNat
  | .wrmsk => 1 + 2 * nm.toNat
  | .ismemo => 1

/-- `MW[13:8]` and `MW[5:0]` of a mask word (R52, R63). -/
def Mask.ofWord (mw : Word) : Mask where
  hi := (mw.extractLsb' 8 6).toNat
  lo := (mw.extractLsb' 0 6).toNat

/-- The mask word of a mask (R52). -/
def Mask.word (m : Mask) : Word :=
  (BitVec.ofNat 6 m.hi).setWidth 64 <<< 8 ||| (BitVec.ofNat 6 m.lo).setWidth 64

/-- The reserved bits 63:14 and 7:6 of a mask word are 0 (R52, R61). -/
def maskWordClean (mw : Word) : Bool := decide (mw &&& ~~~(0x3F3F#64) = 0)

/-- The pairs `MW_1, FV_1, ..., MW_n, FV_n` of format MV (R53). -/
def entriesOfWords : List Word → List Entry
  | mw :: fv :: rest => ⟨Mask.ofWord mw, fv⟩ :: entriesOfWords rest
  | [_] => []
  | [] => []

/-- The words `MW_1, FV_1, ...` of a WRMSK's pairs (R53). -/
def wordsOfEntries : List Entry → List Word
  | e :: rest => e.mask.word :: e.value :: wordsOfEntries rest
  | [] => []

/-- The mask words among the operand words after `ADDR` in format MV. -/
def evenWords : List Word → List Word
  | mw :: _ :: rest => mw :: evenWords rest
  | [mw] => [mw]
  | [] => []

/-- The mask words of a packet of the right length (R53). -/
def Opcode.maskWords (op : Opcode) (ops : List Word) : List Word :=
  match op with
  | .rdmsk => ops.tail
  | .wrmsk => evenWords ops.tail
  | .rdreg => []
  | .wrreg => []
  | .wrcmd => []
  | .ismemo => []

/-- The abstract command of a packet's fields (R63); `none` where the operand words are not those of the format. -/
def assemble (op : Opcode) (w : Option Width) (aw : Width) (ops : List Word) : Option Instr :=
  match op, w, ops with
  | .rdreg, some w, [a] => some (.rdreg ⟨a, aw, w⟩)
  | .wrreg, some w, [a, v] => some (.wrreg ⟨a, aw, w⟩ v)
  | .wrcmd, none, [a] => some (.wrcmd a aw)
  | .rdmsk, some w, a :: ms => some (.rdmsk ⟨a, aw, w⟩ (ms.map Mask.ofWord))
  | .wrmsk, some w, a :: mvs => some (.wrmsk ⟨a, aw, w⟩ (entriesOfWords mvs))
  | .ismemo, w, [a] => some (.ismemo a aw w)
  | _, _, _ => none

/-- Checks 7 to 10 of R60, in their order, on the assembled command. `clean` says that no mask word sets a reserved
bit. -/
def checkOperands (cfg : Cfg) (clean : Bool) (i : Instr) : Decoded :=
  if i.addressLegal = false then .reject .addrRange
  else if (clean && i.masksLegal) = false then .reject .maskRange
  else if i.valuesLegal = false then .reject .valueRange
  else if i.shapeLegal cfg = false then .reject .memoMismatch
  else .accept i

/-- Decode a packet on the instance `cfg`: the checks of R60 in the order of its table, the first that fails names the
rejection (R59, R165, D27). It reads the packet, `MAX_MASKS` and `CFG.memo` alone. -/
def decode (cfg : Cfg) (p : Packet) : Decoded :=
  match Opcode.ofField p.opc with
  | none => .reject .badOpcode
  | some op =>
    if p.rsv ≠ 0 then .reject .badReserved
    else
      match op.widthOf p.w with
      | none => .reject .badWidth
      | some w =>
        match Width.ofField p.aw with
        | none => .reject .badAddrWidth
        | some aw =>
          if op.countAllowed cfg p.nm = false then .reject .badNm
          else if p.ops.length ≠ op.operandWords p.nm then .reject .badLength
          else
            match assemble op w aw p.ops with
            | none => .reject .badLength
            | some i => checkOperands cfg ((op.maskWords p.ops).all maskWordClean) i

/-- The control word of its four fields, `RSV = 0` (R51). -/
def controlWord (opc w aw nm : BitVec 4) : BitVec 32 := opc ++ w ++ aw ++ nm ++ 0#16

/-- The width field of a width that may be 0. -/
def widthField : Option Width → BitVec 4
  | none => 0
  | some w => w.field

/-- The packet of a command (R51 to R54). -/
def encode : Instr → Packet
  | .rdreg reg =>
    ⟨controlWord Opcode.rdreg.field reg.width.field reg.addressWidth.field 0, [reg.address]⟩
  | .wrreg reg v =>
    ⟨controlWord Opcode.wrreg.field reg.width.field reg.addressWidth.field 0, [reg.address, v]⟩
  | .wrcmd address aw =>
    ⟨controlWord Opcode.wrcmd.field 0 aw.field 0, [address]⟩
  | .rdmsk reg masks =>
    ⟨controlWord Opcode.rdmsk.field reg.width.field reg.addressWidth.field (BitVec.ofNat 4 masks.length),
      reg.address :: masks.map Mask.word⟩
  | .wrmsk reg entries =>
    ⟨controlWord Opcode.wrmsk.field reg.width.field reg.addressWidth.field (BitVec.ofNat 4 entries.length),
      reg.address :: wordsOfEntries entries⟩
  | .ismemo address aw width =>
    ⟨controlWord Opcode.ismemo.field (widthField width) aw.field 0, [address]⟩

/-- The packet whose bits are `w`, `nbits` of them given and every bit above them 0: bits 31:0 are `CW`, and operand
word `k` (from 0) stands at bits `32 + 64*k` and up. The number of operand words is the one `CW` calls for (R55); a
control word with a reserved opcode calls for none. -/
def packetOfBits (nbits w : Nat) : Packet :=
  let bits := w % 2 ^ nbits
  let cw := BitVec.ofNat 32 bits
  let n :=
    match Opcode.ofField (cw.extractLsb' 28 4) with
    | none => 0
    | some op => op.operandWords (cw.extractLsb' 16 4)
  ⟨cw, (List.range n).map fun k => BitVec.ofNat 64 (bits >>> (32 + 64 * k))⟩

/-- The instruction the decoder reads from a packet given by its bits, on the instance `State.reset` stands for (log
entry 25). -/
def decodeTableWord (nbits w : Nat) : Option Instr :=
  match decode Cfg.resetInstance (packetOfBits nbits w) with
  | .accept i => some i
  | .reject _ => none

end Sys2Proof
end

