-- ==== Sys2Proof/Machine/State.lean ====
section
/-! DEFINITION. The state of one instance (10_state.md), what crosses its ports (20_memory.md R30, 30_encoding.md
R56), the reasons a step can stop, and reset (R24 of 10_state.md, R180 of 70_reset_and_hazards.md). Plain data. -/

namespace Sys2Proof.Machine

open Sys2Proof

/-- A transport request (R30 to R32 of 20_memory.md). -/
inductive Request where
  /-- `op = RD` -/
  | read (devAddr : Nat) (addrBytes : List Byte) (addrWidth : Nat) (numBytes : Nat)
  /-- `op = WR`, with its `wdata` -/
  | write (devAddr : Nat) (addrBytes : List Byte) (addrWidth : Nat) (numBytes : Nat) (wdata : List Byte)
deriving DecidableEq, Repr

/-- A transport response (R30 of 20_memory.md). The status is signed and has `STATUS_BITS` bits (`Answer.signed`); a
read of `n` bytes is answered by the first `n` of `data`, so that an answer of another length cannot be written (R34,
D28; log entry 8). -/
structure Answer where
  status : Int
  data : Vector Byte 8
deriving DecidableEq, Repr

/-- What the outside world does, in the order in which it does it (R195 of 70_reset_and_hazards.md; log entry 2). -/
inductive Input where
  /-- the requester presents a command packet -/
  | present (p : Packet)
  /-- the requester asserts reset -/
  | reset
  /-- the transport answers the outstanding request -/
  | answer (a : Answer)
deriving DecidableEq, Repr

/-- A response packet: the response word `RW`, the status word `ST`, the value words (R56 of 30_encoding.md). -/
structure ResponsePacket where
  rw : BitVec 32
  st : Word
  values : List Word
deriving DecidableEq, Repr

/-- What the block sends: requests on its transport port, response packets on its response port (D3; log entry 3). -/
inductive Output where
  | request (r : Request)
  | response (r : ResponsePacket)
deriving DecidableEq, Repr

/-- How a command ends (R160 of 60_exceptions.md, R57, R58 of 30_encoding.md). -/
inductive Result where
  /-- `return OK(values)` -/
  | ok (values : List Word)
  /-- `fail TransportFailure(status)` -/
  | transportFailure (status : Int)
  /-- `reject DeclError(reason)` -/
  | declError (e : DeclError)
deriving DecidableEq, Repr

/-- What a command does with the register value its read gives: the rest of the pseudocode of R127, R130, R131 of
43_commands.md after `ReadReg`. -/
inductive AfterRead where
  /-- RDREG: return the value. -/
  | whole
  /-- RDMSK: return the fields. -/
  | fields (masks : List Mask)
  /-- WRMSK: merge the shifted-in values `mv` into the merged range `m`, then write. -/
  | merge (m : Mask) (mv : Word)
deriving DecidableEq, Repr

/-- The write in progress. -/
inductive WriteJob where
  /-- `WriteReg(reg, v)` of WRREG and WRMSK (R126): a success updates the slot. -/
  | register (reg : Reg) (v : Word)
  /-- WRCMD (R129): never touches the cache. -/
  | command
deriving DecidableEq, Repr

/-- The phases of the sequencer (R19 of 10_state.md). -/
inductive Phase where
  | idle
  | decode
  | tRead
  | tWrite
  | respond
deriving DecidableEq, Repr

/-- The sequencer: its phase and the working values of the command in progress (R19 of 10_state.md). -/
inductive Seq where
  | idle
  | decode (p : Packet)
  | tRead (reg : Reg) (k : AfterRead)
  | tWrite (job : WriteJob)
  | respond (r : Result)
deriving DecidableEq, Repr

/-- `SEQ.phase` (R19). -/
def Seq.phase : Seq → Phase
  | .idle => .idle
  | .decode _ => .decode
  | .tRead _ _ => .tRead
  | .tWrite _ => .tWrite
  | .respond _ => .respond

/-- One memoization slot: `MEMO.val[i]`, which may have no value, and `MEMO.seen[i]` (R14, R15 of 10_state.md). -/
structure Slot where
  val : Option Word
  seen : Bool
deriving DecidableEq, Repr

/-- A slot after reset: no value, not seen (R24). -/
def Slot.unpopulated : Slot := ⟨none, false⟩

/-- The state of one instance and its ports (R10 of 10_state.md; INVENTORY.md). -/
structure State where
  /-- `CFG` and the parameters; no step changes it (R11 to R13) -/
  cfg : Cfg
  /-- `MEMO`: slot `i` belongs to register `cfg.memo[i]` (R14, R15, R110) -/
  memo : List Slot
  /-- `SEQ` (R19) -/
  seq : Seq
  /-- what the outside world does next, oldest first (log entry 2) -/
  inputs : List Input
  /-- what the block has sent, oldest first (log entry 3) -/
  out : List Output
deriving DecidableEq, Repr

/-- Why the machine stops. -/
inductive Fault where
  /-- The transport has not answered the outstanding request and nothing more comes from it: the block is stuck in
  T_READ or T_WRITE (R167 of 60_exceptions.md, U7). Raised by `step` in those phases with no input left. Safe: the
  hardware waits for ever too. -/
  | transportSilent
  /-- A slot marked seen holds no value (R14 of 10_state.md, U3). Raised by `readReg`, in states no run reaches
  (`State.Inv` rules them out). Safe. -/
  | emptySlotRead
deriving DecidableEq, Repr

/-- What the model gives no meaning. -/
inductive Refusal where
  /-- No meaning yet for the instruction. Raised by no arm of `exec`. Safe. -/
  | notModelled (mnemonic : String)
  /-- A WRMSK in which two masks share a register bit (R133 of 43_commands.md, U1: "The model refuses it, by name").
  Raised by WRMSK. Safe. -/
  | overlappingMasks
  /-- A command presented while another is in progress (R19 of 10_state.md, U12). Raised while a request is
  outstanding. Safe. -/
  | commandWhileBusy
  /-- Reset while a command is in progress (R181 of 70_reset_and_hazards.md, U13). Raised while a request is
  outstanding. Safe. -/
  | resetDuringCommand
  /-- The transport answers although no request is outstanding, which breaks its contract (R30, R34 of 20_memory.md,
  D28; log entry 16). Raised by `step` when IDLE. Safe. -/
  | answerWithoutRequest
  /-- The instance's configuration breaks R11 to R13 of 10_state.md (U17: refuse to build the instance). Raised by
  `build` and by `step`. Safe. -/
  | invalidConfiguration
  /-- An `Instr` that fails the checks of R60, which no packet decodes to (log entry 19). Raised by every meaning,
  never in a step. Safe. -/
  | illFormedInstr
deriving DecidableEq, Repr

/-- The outcome of a step or of a meaning. -/
abbrev StepResult := Host.Outcome State Fault Refusal

/-- An instance of the configuration `cfg` as reset leaves it: every slot unpopulated and without a value, the
sequencer IDLE (R24 of 10_state.md, R180 of 70_reset_and_hazards.md). -/
def State.init (cfg : Cfg) : State where
  cfg := cfg
  memo := List.replicate cfg.memo.length Slot.unpopulated
  seq := .idle
  inputs := []
  out := []

/-- The machine right after reset, on the instance of log entry 4, with nothing presented. -/
def State.reset : State := State.init Cfg.resetInstance

end Sys2Proof.Machine
end

