-- ==== Sys2Proof/Machine/Operands.lean ====
section
/-! DEFINITION. The pure functions of the block: the bit-field unit (40_bitfield.md), the Endian Normalizer
(41_endian.md), and the sign extension of a status (R57 of 30_encoding.md). They read and write no state. -/

namespace Sys2Proof.Machine

open Sys2Proof

/-! ### The bit-field unit -/

/-- `BW(W)`, the bits of the local representation (R70). -/
def backingBits : Width → Nat
  | .w1 => 8
  | .w2 => 16
  | .w3 => 32
  | .w4 => 32
  | .w8 => 64

/-- `bitmask(W, hi, lo) = 2^(hi+1) - 2^lo`, on naturals, then narrowed (R71, C2, D29). -/
def bitmask (m : Mask) : Word := BitVec.ofNat 64 (2 ^ (m.hi + 1) - 2 ^ m.lo)

/-- `~_n v = (2^n - 1) - v`, the complement within `n` bits (R6 of 00_scope.md). -/
def complementWithin (n : Nat) (v : Word) : Word := BitVec.ofNat 64 (2 ^ n - 1 - v.toNat)

/-- `spans(W, hi, lo)`: the mask covers the whole register (R72). -/
def spans (w : Width) (m : Mask) : Bool := decide (m.lo = 0) && decide (m.hi = 8 * w.bytes - 1)

/-- `shiftIn(W, hi, lo, v) = v << lo` (R73). Its domain is `v < 2^(hi-lo+1)`; no command reaches it outside. -/
def shiftIn (m : Mask) (v : Word) : Word := v <<< m.lo

/-- `shiftOut(W, hi, lo, r) = (r & bitmask) >> lo` (R74). -/
def shiftOut (m : Mask) (r : Word) : Word := (r &&& bitmask m) >>> m.lo

/-- `applyShifted(W, hi, lo, original, shifted) = (original & ~bitmask) | shifted` (R77). -/
def applyShifted (w : Width) (m : Mask) (original shifted : Word) : Word :=
  (original &&& complementWithin (backingBits w) (bitmask m)) ||| shifted

/-- `applyMask(W, hi, lo, original, newField) = (original & ~bitmask) | shiftIn(newField)` (R76). -/
def applyMask (w : Width) (m : Mask) (original newField : Word) : Word :=
  (original &&& complementWithin (backingBits w) (bitmask m)) ||| shiftIn m newField

/-- No register bit lies in both masks. -/
def maskDisjoint (a b : Mask) : Bool := decide (a.hi < b.lo) || decide (b.hi < a.lo)

/-- The masks are pairwise disjoint (R78, R133). -/
def pairwiseDisjoint : List Mask → Bool
  | [] => true
  | m :: ms => ms.all (maskDisjoint m) && pairwiseDisjoint ms

/-- The OR of the shifted-in values. -/
def orOfShifted : List Entry → Word
  | [] => 0
  | e :: es => shiftIn e.mask e.value ||| orOfShifted es

/-- `mergeMasks(W, entries)`: the OR of the shifted-in values where the masks are pairwise disjoint; no value where
they overlap (R78, U1). -/
def mergeMasks (entries : List Entry) : Option Word :=
  if pairwiseDisjoint (entries.map Entry.mask) then some (orOfShifted entries) else none

/-- The range from the lower `lo` to the higher `hi` of two masks. -/
def maskJoin (a b : Mask) : Mask := ⟨max a.hi b.hi, min a.lo b.lo⟩

/-- `mergedMask(W, masks) = (W, max hi_i, min lo_i)` of a first mask and the others (R79). -/
def mergedMask (m : Mask) (ms : List Mask) : Mask := ms.foldl maskJoin m

/-! ### The Endian Normalizer -/

/-- `effOrder`: `native` stands for `HOST_ORDER` (R91, D12). -/
def effOrder (cfg : Cfg) : Endian :=
  match cfg.order with
  | .native => cfg.hostOrder
  | .little => .little
  | .big => .big

/-- `v[8*i+7 : 8*i]`. -/
def byteOf (v : Word) (i : Nat) : Byte := v.extractLsb' (8 * i) 8

/-- Bytes `0 .. n-1` of a value, least significant first. -/
def littleBytes (n : Nat) (v : Word) : List Byte := (List.range n).map fun i => byteOf v i

/-- Bytes `0 .. n-1` of a value, most significant first. -/
def bigBytes (n : Nat) (v : Word) : List Byte := (List.range n).map fun i => byteOf v (n - 1 - i)

/-- The general case of `toDev`, widths 1, 2, 4, 8 (R92). -/
def toDevRegular (e : Endian) (n : Nat) (v : Word) : List Byte :=
  match e with
  | .little => littleBytes n v
  | .big => bigBytes n v

/-- The irregular case of `toDev`, width 3: bits 31:24 are never transmitted (R93). -/
def toDev3 (e : Endian) (v : Word) : List Byte :=
  match e with
  | .little => [v.extractLsb' 0 8, v.extractLsb' 8 8, v.extractLsb' 16 8]
  | .big => [v.extractLsb' 16 8, v.extractLsb' 8 8, v.extractLsb' 0 8]

/-- `toDev(v, W)` in an effective order (R90, R92, R93). -/
def toDev (e : Endian) (v : Word) (w : Width) : List Byte :=
  match w with
  | .w1 => toDevRegular e 1 v
  | .w2 => toDevRegular e 2 v
  | .w3 => toDev3 e v
  | .w4 => toDevRegular e 4 v
  | .w8 => toDevRegular e 8 v

/-- The sum over `i` of `d[i] << (8*i)`, on naturals (R95). -/
def littleSum : List Byte → Nat
  | [] => 0
  | d :: ds => d.toNat + 2 ^ 8 * littleSum ds

/-- The general case of `toLocal`, widths 1, 2, 4, 8 (R95). -/
def toLocalRegular (e : Endian) (d : List Byte) : Word :=
  match e with
  | .little => BitVec.ofNat 64 (littleSum d)
  | .big => BitVec.ofNat 64 (littleSum d.reverse)

/-- The irregular case of `toLocal`, width 3: bits 31:24 are 0 (R94, C4, D13; log entry 13). -/
def toLocal3 (e : Endian) (d : List Byte) : Word :=
  let d0 := d.getD 0 0
  let d1 := d.getD 1 0
  let d2 := d.getD 2 0
  match e with
  | .little => (0x00#8 ++ d2 ++ d1 ++ d0).setWidth 64
  | .big => (0x00#8 ++ d0 ++ d1 ++ d2).setWidth 64

/-- `toLocal(bytes, W)` in an effective order (R90, R94, R95). A list handed to it has `W` bytes (`Answer.bytes`). -/
def toLocal (e : Endian) (d : List Byte) (w : Width) : Word :=
  match w with
  | .w1 => toLocalRegular e d
  | .w2 => toLocalRegular e d
  | .w3 => toLocal3 e d
  | .w4 => toLocalRegular e d
  | .w8 => toLocalRegular e d

/-! ### The transport's answer -/

/-- The `n` bytes that answer a read of `n` bytes, `n <= 8` (R34, D28). -/
def Answer.bytes (a : Answer) (n : Nat) : List Byte := a.data.toList.take n

/-- The status on the port: a signed integer of `STATUS_BITS` bits (R30, R33 of 20_memory.md; log entry 8). -/
def Answer.signed (a : Answer) (cfg : Cfg) : Int := a.status.bmod (2 ^ cfg.statusBits)

/-- `sext_64(status)` (R57 of 30_encoding.md); a free value where the status does not fit in 64 bits (log entry 9). -/
def sext64 (status : Int) : Word :=
  if -(2 ^ 63) ≤ status ∧ status < 2 ^ 63 then BitVec.ofInt 64 status else Config.statusWordBeyond64 status

/-! ### The response packet -/

/-- `RW`: `KIND[31:30]`, `NV[29:26]`, the rest 0 (R56 of 30_encoding.md). -/
def responseWord (kind : BitVec 2) (nv : Nat) : BitVec 32 := kind ++ BitVec.ofNat 4 nv ++ 0#26

/-- The response packet of a result (R56 to R58 of 30_encoding.md, R164 of 60_exceptions.md). -/
def Result.packet : Result → ResponsePacket
  | .ok values => ⟨responseWord 0 values.length, 0, values⟩
  | .transportFailure status => ⟨responseWord 1 0, sext64 status, []⟩
  | .declError e => ⟨responseWord 2 0, BitVec.ofNat 64 e.code, []⟩

end Sys2Proof.Machine
end

