-- ==== Sys2Proof/Machine/Flags.lean ====
section
/-! DEFINITION. The block's only flag, `MEMO.seen[i]` (R15, R20 of 10_state.md): how it is read (R113) and set (R116
of 42_memo.md). There is no operation that clears it (R117); only reset does (R180). No command computes any other
flag. -/

namespace Sys2Proof.Machine

open Sys2Proof

/-- `isPopulated(index)`: "reads the seen flag" (R113). -/
def isPopulated (s : State) (i : Nat) : Bool :=
  match s.memo[i]? with
  | some slot => slot.seen
  | none => false

/-- `markPopulated(index)`: "sets the seen flag" (R116). -/
def markPopulated (i : Nat) (s : State) : State :=
  { s with memo := s.memo.modify i fun slot => { slot with seen := true } }

end Sys2Proof.Machine
end

