-- ==== Sys2Proof/Machine/Ops.lean ====
section
/-! DEFINITION. The shared operations of the engine: the Memoization Cache primitives (42_memo.md), the transport
requests (R31, R32 of 20_memory.md), ending a command with a response, which is all that the block's errors do (R161 to
R163 of 60_exceptions.md), and the internal procedures `ReadReg` and `WriteReg` (R125, R126 of 43_commands.md). -/

namespace Sys2Proof.Machine

open Sys2Proof

/-! ### Memoization Cache primitives -/

/-- `indexOf(address)`: the least slot with this address, or `N_MEMO` (R111, D23). -/
def indexOf (cfg : Cfg) (address : Word) : Nat := cfg.memo.findIdx fun m => decide (m.address = address)

/-- `isCacheable(index)`: the index is in range (R112). -/
def isCacheable (cfg : Cfg) (i : Nat) : Bool := decide (i < cfg.memo.length)

/-- `slotRead(index)`, `MEMO.val[index]`; `none` where it has no value (R114, R14). -/
def slotRead (s : State) (i : Nat) : Option Word :=
  match s.memo[i]? with
  | some slot => slot.val
  | none => none

/-- `slotWrite(index, v)`: `MEMO.val[index] <- v` (R115). -/
def slotWrite (i : Nat) (v : Word) (s : State) : State :=
  { s with memo := s.memo.modify i fun slot => { slot with val := some v } }

/-- "if isCacheable(i): slotWrite(i, v); markPopulated(i)" for the register at `address` (R125, R126). -/
def cache (address : Word) (v : Word) (s : State) : State :=
  let i := indexOf s.cfg address
  if isCacheable s.cfg i then markPopulated i (slotWrite i v s) else s

/-! ### Ending a command -/

/-- Send something on a port. -/
def emit (o : Output) (s : State) : State := { s with out := s.out ++ [o] }

/-- RESPOND and back to IDLE: the one response packet of the command (R19, R56, R163). -/
def respond (r : Result) (s : State) : State := emit (.response r.packet) { s with seq := .idle }

/-- `return OK(values)`. -/
def returnOk (values : List Word) (s : State) : State := respond (.ok values) s

/-- `fail TransportFailure(status)` (R161): nothing but the response, no state saved, no sticky error (R163, R169). -/
def failTransport (status : Int) (s : State) : State := respond (.transportFailure status) s

/-- `reject DeclError(reason)` (R162, R67). -/
def rejectDecl (e : DeclError) (s : State) : State := respond (.declError e) s

/-! ### Transport requests -/

/-- The request of `TRead(reg)` (R31). -/
def readRequest (cfg : Cfg) (reg : Reg) : Request :=
  .read cfg.devAddr (toDev (effOrder cfg) reg.address reg.addressWidth) reg.addressWidth.bytes reg.width.bytes

/-- The request of `TWrite(reg, bytes)` for a register of `numBytes` bytes at `address` (R32). -/
def writeRequest (cfg : Cfg) (address : Word) (aw : Width) (bytes : List Byte) : Request :=
  .write cfg.devAddr (toDev (effOrder cfg) address aw) aw.bytes bytes.length bytes

/-- Wait for the answer to the outstanding request: with an answer at hand go on with `k`; with nothing at hand rest in
the phase `waiting`; a presentation or a reset meanwhile has no meaning (R19, R181, D3, D19). -/
def awaitAnswer (waiting : Seq) (k : Answer → State → StepResult) (s : State) : StepResult :=
  match s.inputs with
  | [] => .next { s with seq := waiting }
  | .answer a :: rest => k a { s with inputs := rest }
  | .present _ :: _ => .refused .commandWhileBusy
  | .reset :: _ => .refused .resetDuringCommand

/-- What the answer to a write does: `st < 0` fails the command and leaves the slots; success updates the slot of a
register, with the local value, and never that of a command register (R126, R129). -/
def onWriteAnswer (job : WriteJob) (a : Answer) (s : State) : StepResult :=
  if a.signed s.cfg < 0 then .next (failTransport (a.signed s.cfg) s)
  else
    match job with
    | .register reg v => .next (returnOk [] (cache reg.address v s))
    | .command => .next (returnOk [] s)

/-- T_WRITE: the write request is out. -/
def awaitWrite (job : WriteJob) (s : State) : StepResult := awaitAnswer (.tWrite job) (onWriteAnswer job) s

/-- `WriteReg(reg, v)` and the end of the command (R126): one transport write, always issued. -/
def writeReg (reg : Reg) (v : Word) (s : State) : StepResult :=
  awaitWrite (.register reg v)
    (emit (.request (writeRequest s.cfg reg.address reg.addressWidth (toDev (effOrder s.cfg) v reg.width))) s)

/-- The rest of a command once its register value is at hand (R127, R130, R131). -/
def afterRead (reg : Reg) (k : AfterRead) (v : Word) (s : State) : StepResult :=
  match k with
  | .whole => .next (returnOk [v] s)
  | .fields masks => .next (returnOk (masks.map fun m => shiftOut m v) s)
  | .merge m mv => writeReg reg (applyShifted reg.width m v mv) s

/-- What the answer to a read does: `st < 0` fails the command and leaves the slots; success converts the bytes, fills
the slot of a memoized register, and goes on (R125, R136). -/
def onReadAnswer (reg : Reg) (k : AfterRead) (a : Answer) (s : State) : StepResult :=
  if a.signed s.cfg < 0 then .next (failTransport (a.signed s.cfg) s)
  else
    let v := toLocal (effOrder s.cfg) (a.bytes reg.width.bytes) reg.width
    afterRead reg k v (cache reg.address v s)

/-- T_READ: the read request is out. -/
def awaitRead (reg : Reg) (k : AfterRead) (s : State) : StepResult :=
  awaitAnswer (.tRead reg k) (onReadAnswer reg k) s

/-- `ReadReg(reg)` and the rest of the command (R125): a populated slot serves the read with no request at all;
otherwise one transport read. -/
def readReg (reg : Reg) (k : AfterRead) (s : State) : StepResult :=
  let i := indexOf s.cfg reg.address
  if isCacheable s.cfg i && isPopulated s i then
    match slotRead s i with
    | some v => afterRead reg k v s
    | none => .fault .emptySlotRead
  else awaitRead reg k (emit (.request (readRequest s.cfg reg)) s)

/-- A command's pseudocode starts after the checks of R60, with a valid command (43_commands.md); a term that fails
them is no command and gets no meaning (log entry 19). -/
def whenValid (i : Instr) (s : State) (meaning : StepResult) : StepResult :=
  if i.wf s.cfg then meaning else .refused .illFormedInstr

end Sys2Proof.Machine
end

