-- ==== Sys2Proof/Machine/Boot.lean ====
section
/-! DEFINITION. Making an instance and resetting it: the validity of a configuration (R5 of 00_scope.md, R11 to R13 of
10_state.md, U17), building an instance from raw configuration data (R183 of 70_reset_and_hazards.md), and reset (R180). -/

namespace Sys2Proof.Machine

open Sys2Proof

/-- No two entries have the same address (R13 (d)). -/
def addressesDistinct : List Reg → Bool
  | [] => true
  | m :: ms => ms.all (fun n => !decide (n.address = m.address)) && addressesDistinct ms

/-- A configuration within R5 and R11 to R13. Widths outside (a) and (b) of R13 cannot be written in a `Reg`; `build`
meets them. -/
def validCfg (cfg : Cfg) : Bool :=
  decide (0 < cfg.devAddrBits) && decide (cfg.devAddr < 2 ^ cfg.devAddrBits)
    && decide (1 ≤ cfg.maxMasks) && decide (cfg.maxMasks ≤ 15) && decide (2 ≤ cfg.statusBits)
    && cfg.memo.all (fun m => addressFits m.address m.addressWidth) && addressesDistinct cfg.memo

/-- A memoized-register entry as it is declared, before any check. -/
structure RawReg where
  address : Nat
  addressWidth : Nat
  width : Nat
deriving DecidableEq, Repr

/-- A configuration as it is declared, before any check (R183 (a), (b)); `orderCode` is the 2-bit code of R11. -/
structure RawCfg where
  hostOrder : Endian
  orderCode : BitVec 2
  devAddrBits : Nat
  devAddr : Nat
  maxMasks : Nat
  statusBits : Nat
  memo : List RawReg
deriving DecidableEq, Repr

/-- The 2-bit code of `CFG.order`; 3 is reserved (R11, D18). -/
def orderOfCode (c : BitVec 2) : Option DeviceOrder :=
  match c.toNat with
  | 0 => some .native
  | 1 => some .little
  | 2 => some .big
  | _ => none

/-- A width of the set {1, 2, 3, 4, 8}. -/
def widthOfNat (n : Nat) : Option Width :=
  match n with
  | 1 => some .w1
  | 2 => some .w2
  | 3 => some .w3
  | 4 => some .w4
  | 8 => some .w8
  | _ => none

/-- A declared entry as a register descriptor: (a), (b), (c) of R13. -/
def RawReg.check (r : RawReg) : Option Reg :=
  match widthOfNat r.width, widthOfNat r.addressWidth with
  | some w, some aw => if r.address < 2 ^ (8 * aw.bytes) then some ⟨BitVec.ofNat 64 r.address, aw, w⟩ else none
  | _, _ => none

/-- Every declared entry, or nothing if one of them fails. -/
def checkRegs : List RawReg → Option (List Reg)
  | [] => some []
  | r :: rs =>
    match r.check, checkRegs rs with
    | some m, some ms => some (m :: ms)
    | _, _ => none

/-- The configuration a declaration makes, if it is valid (R13: "must be rejected before any runtime call is
possible"). -/
def RawCfg.check (raw : RawCfg) : Option Cfg :=
  match orderOfCode raw.orderCode, checkRegs raw.memo with
  | some order, some memo =>
    let cfg : Cfg :=
      ⟨raw.hostOrder, order, raw.devAddrBits, raw.devAddr, raw.maxMasks, raw.statusBits, memo⟩
    if validCfg cfg then some cfg else none
  | _, _ => none

/-- Build the instance, reset, or refuse to build it (R13, R180, R183, U17). -/
def build (raw : RawCfg) : StepResult :=
  match raw.check with
  | some cfg => .next (State.init cfg)
  | none => .refused .invalidConfiguration

/-- Reset (R180): every slot unpopulated and without a value, the sequencer IDLE, the configuration unchanged. It sends
nothing (R182); what stands on the ports is not the block's. -/
def resetBlock (s : State) : State :=
  { s with memo := List.replicate s.cfg.memo.length Slot.unpopulated, seq := .idle }

end Sys2Proof.Machine
end

