-- ==== Sys2Proof/Machine/BitField.lean ====
section
/-! DEFINITION. The bit-field commands RDMSK, WRMSK (R130 to R133 of 43_commands.md). -/

namespace Sys2Proof.Machine

open Sys2Proof

/-- RDMSK (R130): one register read, each field extracted from the same value, in mask order. -/
def execRdmsk (reg : Reg) (masks : List Mask) (s : State) : StepResult :=
  whenValid (.rdmsk reg masks) s (readReg reg (.fields masks) s)

/-- WRMSK (R131) of a first mask and the others: where the merged mask spans the register the merged value is written
with no read; otherwise it is merged into the value read, the whole merged range being replaced, gaps by 0 (R132, D14;
log entry 11). Overlapping masks have no merged value and the command no meaning (R133, U1; log entry 10). -/
def execWrmsk (reg : Reg) (entries : List Entry) (s : State) : StepResult :=
  whenValid (.wrmsk reg entries) s
    (match entries with
    | [] => .refused .illFormedInstr
    | e :: es =>
      match mergeMasks (e :: es) with
      | none => .refused .overlappingMasks
      | some mv =>
        let m := mergedMask e.mask (es.map Entry.mask)
        if spans reg.width m then writeReg reg mv s else readReg reg (.merge m mv) s)

end Sys2Proof.Machine
end

