-- ==== Sys2Proof/Machine/Query.lean ====
section
/-! DEFINITION. The query command ISMEMO (R134 of 43_commands.md). -/

namespace Sys2Proof.Machine

open Sys2Proof

/-- ISMEMO (R134): 1 iff the address has a slot, whether or not it is populated. -/
def execIsmemo (address : Word) (aw : Width) (width : Option Width) (s : State) : StepResult :=
  whenValid (.ismemo address aw width) s
    (.next (returnOk [if isCacheable s.cfg (indexOf s.cfg address) then 1 else 0] s))

end Sys2Proof.Machine
end

