-- ==== Sys2Proof/Machine/WholeRegister.lean ====
section
/-! DEFINITION. The whole-register commands RDREG, WRREG, WRCMD (R127 to R129 of 43_commands.md). -/

namespace Sys2Proof.Machine

open Sys2Proof

/-- RDREG (R127). -/
def execRdreg (reg : Reg) (s : State) : StepResult :=
  whenValid (.rdreg reg) s (readReg reg .whole s)

/-- WRREG (R128). -/
def execWrreg (reg : Reg) (v : Word) (s : State) : StepResult :=
  whenValid (.wrreg reg v) s (writeReg reg v s)

/-- WRCMD (R129): `TWrite(reg, [])`, no slot touched. -/
def execWrcmd (address : Word) (aw : Width) (s : State) : StepResult :=
  whenValid (.wrcmd address aw) s
    (awaitWrite .command (emit (.request (writeRequest s.cfg address aw [])) s))

end Sys2Proof.Machine
end

