-- ==== Sys2Proof/Machine/Dispatch.lean ====
section
/-! DEFINITION. The dispatch: one arm per command of spec/opcode_table.json. -/

namespace Sys2Proof.Machine
open Sys2Proof

def exec (i : Instr) (s : State) : Host.Outcome State Fault Refusal :=
  match i with
  | .rdreg reg => Sys2Proof.Machine.execRdreg reg s
  | .wrreg reg v => Sys2Proof.Machine.execWrreg reg v s
  | .wrcmd address aw => Sys2Proof.Machine.execWrcmd address aw s
  | .rdmsk reg masks => Sys2Proof.Machine.execRdmsk reg masks s
  | .wrmsk reg entries => Sys2Proof.Machine.execWrmsk reg entries s
  | .ismemo address aw width => Sys2Proof.Machine.execIsmemo address aw width s

end Sys2Proof.Machine
end

