-- ==== Sys2Proof/Machine/Sequencer.lean ====
section
/-! DEFINITION. The sequencer (R19 of 10_state.md): how a command packet gets into the block, which has no program
counter and fetches nothing (R18), and what one step does in each phase (log entries 1, 5, 6, 7, 20). -/

namespace Sys2Proof.Machine

open Sys2Proof

/-- IDLE to DECODE: the packet is latched, the rest of the inputs stays (R19). -/
def latch (p : Packet) (rest : List Input) (s : State) : State := { s with seq := .decode p, inputs := rest }

/-- Put a packet on the command port of an idle block, before whatever comes next. -/
def placePacket (p : Packet) (s : State) : State := { s with seq := .idle, inputs := .present p :: s.inputs }

/-- DECODE: run the command a packet decodes to, or reject it (R59, R60). -/
def runPacket (p : Packet) (s : State) : StepResult :=
  match decode s.cfg p with
  | .accept i => exec i s
  | .reject e => .next (rejectDecl e s)

/-- IDLE: take the requester's next event. With none the block waits and nothing changes (log entry 7). -/
def idleStep (s : State) : StepResult :=
  match s.inputs with
  | [] => .next s
  | .present p :: rest => runPacket p (latch p rest s)
  | .reset :: rest => .next (resetBlock { s with inputs := rest })
  | .answer _ :: _ => .refused .answerWithoutRequest

/-- The step of a validly configured instance, by phase. -/
def phaseStep (s : State) : StepResult :=
  match s.seq with
  | .idle => idleStep s
  | .decode p => runPacket p s
  | .tRead reg k => if s.inputs = [] then .fault .transportSilent else awaitRead reg k s
  | .tWrite job => if s.inputs = [] then .fault .transportSilent else awaitWrite job s
  | .respond r => .next (respond r s)

end Sys2Proof.Machine
end

