-- ==== Sys2Proof/Machine/Step.lean ====
section
/-! DEFINITION. One step of the block (R19 of 10_state.md, R42 of 20_memory.md): from IDLE the whole of the next thing
the requester does, up to the command's response or to the transport's silence; from T_READ or T_WRITE the rest of the
command in progress. What each phase does stands in Machine/Sequencer.lean. -/

namespace Sys2Proof.Machine

open Sys2Proof

/-- One step. An instance whose configuration is invalid is never built (R13, U17). -/
def step (s : State) : Host.Outcome State Fault Refusal :=
  if validCfg s.cfg then phaseStep s else .refused .invalidConfiguration

/-- `s`, IDLE, with the packet of `nbits` bits `w` presented next (log entry 5). -/
def State.withFetchWord (s : State) (nbits w : Nat) : State := placePacket (packetOfBits nbits w) s

end Sys2Proof.Machine
end

