-- ==== Sys2Proof/Safety.lean ====
section
/-! DEFINITION. The terms claims use: the invariant of an instance, what a command may send, and the outcomes. -/

namespace Sys2Proof.Machine

open Sys2Proof

/-- A slot agrees with its register: it has a value exactly when it is populated, and the value fits the register, so
that bits 31:24 of a width-3 slot are 0 (R14, R15 of 10_state.md). -/
def Slot.agrees (reg : Reg) (slot : Slot) : Bool :=
  match slot.val with
  | none => !slot.seen
  | some v => slot.seen && valueFits v reg.width

/-- Exactly one slot per memoized register, each agreeing with it (R110 of 42_memo.md). -/
def slotsAgree : List Reg → List Slot → Bool
  | [], [] => true
  | reg :: regs, slot :: slots => slot.agrees reg && slotsAgree regs slots
  | [], _ :: _ => false
  | _ :: _, [] => false

/-- A register a decoded command may use on the instance: its address fits and its shape is the memoized one. -/
def regUsable (cfg : Cfg) (reg : Reg) : Bool :=
  addressFits reg.address reg.addressWidth && shapeMatches cfg reg.address reg.addressWidth (some reg.width)

/-- What a decoded command may do after its read. -/
def AfterRead.usable (w : Width) : AfterRead → Bool
  | .whole => true
  | .fields _ => true
  | .merge m mv => m.valid w && valueFits mv w

/-- A write a decoded command may have in progress. -/
def WriteJob.usable (cfg : Cfg) : WriteJob → Bool
  | .register reg v => regUsable cfg reg && valueFits v reg.width
  | .command => true

/-- The command in progress came from a decoded command. -/
def Seq.usable (cfg : Cfg) : Seq → Bool
  | .idle => true
  | .decode _ => true
  | .tRead reg k => regUsable cfg reg && k.usable reg.width
  | .tWrite job => job.usable cfg
  | .respond _ => true

/-- The invariant of an instance: its configuration is valid, its slots agree with their registers, and the command in
progress is one that was decoded. -/
def State.Inv (s : State) : Prop :=
  (validCfg s.cfg && slotsAgree s.cfg.memo s.memo && s.seq.usable s.cfg) = true

/-- The requests among what was sent, in order. -/
def requestsOf : List Output → List Request
  | [] => []
  | .request r :: rest => r :: requestsOf rest
  | .response _ :: rest => requestsOf rest

/-- The response packets among what was sent, in order. -/
def responsesOf : List Output → List ResponsePacket
  | [] => []
  | .request _ :: rest => responsesOf rest
  | .response r :: rest => r :: responsesOf rest

/-- A request is a transport read. -/
def Request.isRead : Request → Bool
  | .read _ _ _ _ => true
  | .write _ _ _ _ _ => false

/-- The number of transport reads sent. -/
def readsIn (o : List Output) : Nat := ((requestsOf o).filter Request.isRead).length

/-- The number of transport writes sent. -/
def writesIn (o : List Output) : Nat := ((requestsOf o).filter fun r => !r.isRead).length

/-- A slot of the state for the register at this address is populated: a read of it is a cache hit (R125). -/
def State.hit (s : State) (address : Word) : Bool :=
  isCacheable s.cfg (indexOf s.cfg address) && isPopulated s (indexOf s.cfg address)

/-- The slots after the register at `address` has been given the value `v`: its slot, if it has one, holds `v` and is
populated; every other slot is as before (R115, R116 of 42_memo.md). -/
def slotsHolding (s : State) (address v : Word) : List Slot :=
  if indexOf s.cfg address < s.cfg.memo.length then s.memo.set (indexOf s.cfg address) ⟨some v, true⟩ else s.memo

/-- The request of a transport read of `reg` by the instance of `s`, field by field (R31 of 20_memory.md). -/
def readOf (s : State) (reg : Reg) : Output :=
  .request (.read s.cfg.devAddr (toDev (effOrder s.cfg) reg.address reg.addressWidth) reg.addressWidth.bytes
    reg.width.bytes)

/-- The request of a transport write of the value `v` to `reg`, field by field (R32 of 20_memory.md). -/
def writeOf (s : State) (reg : Reg) (v : Word) : Output :=
  .request (.write s.cfg.devAddr (toDev (effOrder s.cfg) reg.address reg.addressWidth) reg.addressWidth.bytes
    reg.width.bytes (toDev (effOrder s.cfg) v reg.width))

/-- The value that an answer to a read of `reg` carries (R125 of 43_commands.md). -/
def valueRead (s : State) (reg : Reg) (a : Answer) : Word :=
  toLocal (effOrder s.cfg) (a.bytes reg.width.bytes) reg.width

/-- An OK response on the response port. -/
def okOf (values : List Word) : Output := .response (Result.ok values).packet

/-- A TRANSPORT_FAIL response with the status of an answer. -/
def failureOf (s : State) (a : Answer) : Output := .response (Result.transportFailure (a.signed s.cfg)).packet

/-- The answer reports success: its status is not negative (R33 of 20_memory.md). -/
def Answer.succeeds (a : Answer) (s : State) : Prop := 0 ≤ a.signed s.cfg

/-- Two masks of a WRMSK share a register bit (R133 of 43_commands.md). -/
def someBitInTwoMasks (entries : List Entry) : Prop :=
  ∃ (j k b : Nat) (x y : Entry), j < k ∧ entries[j]? = some x ∧ entries[k]? = some y ∧
    (x.mask.lo ≤ b ∧ b ≤ x.mask.hi) ∧ (y.mask.lo ≤ b ∧ b ≤ y.mask.hi)

/-- The instance with another `HOST_ORDER`. -/
def withHost (h : Endian) (s : State) : State := { s with cfg := { s.cfg with hostOrder := h } }

/-- An outcome with its next state, if any, changed by `f`. -/
def mapNext (f : State → State) (o : StepResult) : StepResult :=
  match o with
  | .next t => .next (f t)
  | .fault r => .fault r
  | .refused r => .refused r

/-! ### The table of R60 of 30_encoding.md, on the bits of a packet, written apart from the decoder -/

/-- The `n` bits of `CW` from bit `lo` up, as a number (R51). -/
def cwField (p : Packet) (lo n : Nat) : Nat := p.cw.toNat / 2 ^ lo % 2 ^ n

/-- `ADDR`. -/
def addrWord (p : Packet) : Nat := (p.ops.getD 0 0).toNat

/-- `MW_(k+1)`: after `ADDR` in format M, every second word after it in format MV (R53). -/
def mwWord (p : Packet) (k : Nat) : Nat :=
  (p.ops.getD (if cwField p 28 4 = 4 then 1 + k else 1 + 2 * k) 0).toNat

/-- `MW[13:8]`. -/
def mwHi (p : Packet) (k : Nat) : Nat := mwWord p k / 2 ^ 8 % 2 ^ 6

/-- `MW[5:0]`. -/
def mwLo (p : Packet) (k : Nat) : Nat := mwWord p k % 2 ^ 6

/-- `FV_(k+1)` in format MV. -/
def fvWord (p : Packet) (k : Nat) : Nat := (p.ops.getD (2 + 2 * k) 0).toNat

/-- The packet carries masks: its opcode is RDMSK or WRMSK. -/
def carriesMasks (p : Packet) : Prop := cwField p 28 4 = 4 ∨ cwField p 28 4 = 5

/-- The widths that the opcode allows (R54). -/
def widthAllowed (opc w : Nat) : Prop :=
  if opc = 3 then w = 0
  else if opc = 6 then w = 0 ∨ w = 1 ∨ w = 2 ∨ w = 3 ∨ w = 4 ∨ w = 8
  else w = 1 ∨ w = 2 ∨ w = 3 ∨ w = 4 ∨ w = 8

/-- The number of words after `CW` (R53). -/
def wordsCalledFor (opc nm : Nat) : Nat :=
  if opc = 2 then 2 else if opc = 4 then 1 + nm else if opc = 5 then 1 + 2 * nm else 1

/-- The column "fails when" of R60. -/
def checkFails (cfg : Cfg) (p : Packet) : DeclError → Prop
  | .badOpcode => ¬(1 ≤ cwField p 28 4 ∧ cwField p 28 4 ≤ 6)
  | .badReserved => cwField p 0 16 ≠ 0
  | .badWidth => ¬widthAllowed (cwField p 28 4) (cwField p 24 4)
  | .badAddrWidth =>
    ¬(cwField p 20 4 = 1 ∨ cwField p 20 4 = 2 ∨ cwField p 20 4 = 3 ∨ cwField p 20 4 = 4 ∨ cwField p 20 4 = 8)
  | .badNm =>
    (¬carriesMasks p ∧ cwField p 16 4 ≠ 0) ∨
      (carriesMasks p ∧ (cwField p 16 4 = 0 ∨ cfg.maxMasks < cwField p 16 4))
  | .badLength => p.ops.length ≠ wordsCalledFor (cwField p 28 4) (cwField p 16 4)
  | .addrRange => 2 ^ (8 * cwField p 20 4) ≤ addrWord p
  | .maskRange =>
    carriesMasks p ∧ ∃ k, k < cwField p 16 4 ∧
      (mwWord p k ≠ mwHi p k * 2 ^ 8 + mwLo p k ∨ mwHi p k < mwLo p k ∨ 8 * cwField p 24 4 ≤ mwHi p k)
  | .valueRange =>
    (cwField p 28 4 = 2 ∧ 2 ^ (8 * cwField p 24 4) ≤ (p.ops.getD 1 0).toNat) ∨
      (cwField p 28 4 = 5 ∧ ∃ k, k < cwField p 16 4 ∧ 2 ^ (mwHi p k - mwLo p k + 1) ≤ fvWord p k)
  | .memoMismatch =>
    ∃ m ∈ cfg.memo, m.address.toNat = addrWord p ∧
      (m.addressWidth.bytes ≠ cwField p 20 4 ∨ m.width.bytes ≠ cwField p 24 4)

end Sys2Proof.Machine
end

