-- ==== Sys2Proof/Certificates/Slice0/Obligations.lean ====
section
/-! DEFINITION. The statements for the provers. Each is about every configuration, state and operand that meets its
hypotheses; every hypothesis has a witness in Sys2Proof/Tests/Slice0.lean. -/

open Sys2Proof Sys2Proof.Machine

/-! ### Encoding and decoding (30_encoding.md) -/

/-- R51 to R55, R63: decoding the packet of a valid command gives the command back, every operand at every value. -/
def Obligations.EncodedCommandDecodesToItself : Prop :=
  ∀ (cfg : Cfg) (i : Instr), validCfg cfg = true → i.wf cfg = true → decode cfg (encode i) = .accept i

/-- R61: an accepted packet is the one packet of its command; no bit of it is ignored. -/
def Obligations.AcceptedPacketIsItsCommandsEncoding : Prop :=
  ∀ (cfg : Cfg) (p : Packet) (i : Instr), decode cfg p = .accept i → encode i = p

/-- R59, R60: what decode accepts passes every check. -/
def Obligations.AcceptedCommandIsWellFormed : Prop :=
  ∀ (cfg : Cfg) (p : Packet) (i : Instr), decode cfg p = .accept i → i.wf cfg = true

/-- R51 to R54: packets whose words are written out from the fields, one of each opcode, decoded on the
configuration the model chose for the reset instance (log entry 4). -/
def Obligations.HandWrittenPacketsDecode : Prop :=
  decode Cfg.resetInstance ⟨0x12100000, [0x40]⟩ = .accept (.rdreg ⟨0x40, .w1, .w2⟩) ∧
    decode Cfg.resetInstance ⟨0x23100000, [0x40, 0x123456]⟩ = .accept (.wrreg ⟨0x40, .w1, .w3⟩ 0x123456) ∧
    decode Cfg.resetInstance ⟨0x30200000, [0x1FE]⟩ = .accept (.wrcmd 0x1FE .w2) ∧
    decode Cfg.resetInstance ⟨0x48420000, [0x01020304, 0x3F00, 0x2708]⟩ =
      .accept (.rdmsk ⟨0x01020304, .w4, .w8⟩ [⟨63, 0⟩, ⟨39, 8⟩]) ∧
    decode Cfg.resetInstance ⟨0x58410000, [0x01020304, 0x3F3F, 1]⟩ =
      .accept (.wrmsk ⟨0x01020304, .w4, .w8⟩ [⟨⟨63, 63⟩, 1⟩]) ∧
    decode Cfg.resetInstance ⟨0x60100000, [0x11]⟩ = .accept (.ismemo 0x11 .w1 none)

/-- R60, R165: a packet is rejected by the first check of the table that it fails, and accepted if it fails none. -/
def Obligations.RejectionNamesFirstFailingCheck : Prop :=
  ∀ (cfg : Cfg) (p : Packet),
    (∀ e, decode cfg p = .reject e ↔
      (checkFails cfg p e ∧ ∀ e' : DeclError, e'.code < e.code → ¬checkFails cfg p e')) ∧
    ((∃ i, decode cfg p = .accept i) ↔ ∀ e, ¬checkFails cfg p e)

/-- R67, R162: a rejected packet gets a DECL_ERROR response and changes nothing; the block is IDLE. That one step
takes and answers it is the model's choice (log entry 1). -/
def Obligations.RejectedPacketChangesNothing : Prop :=
  ∀ (s : State) (p : Packet) (rest : List Input) (e : DeclError),
    validCfg s.cfg = true → s.seq = .idle → s.inputs = .present p :: rest → decode s.cfg p = .reject e →
      step s = .next
        { s with inputs := rest, out := s.out ++ [.response ⟨0x80000000, BitVec.ofNat 64 e.code, []⟩] }

/-! ### The sequencer, reset, the instance (10_state.md, 70_reset_and_hazards.md) -/

/-- R18, R19, R59: the step that takes a presented packet is the command it decodes to, run on the state with the
packet latched. That one step is the whole of the command is the model's choice and no rule's (log entry 1), as is the
form of the presentation (log entries 2 and 5); the rules give the phases and what DECODE does. -/
def Obligations.StepRunsThePresentedCommand : Prop :=
  ∀ (s : State) (p : Packet) (rest : List Input) (i : Instr),
    validCfg s.cfg = true → s.seq = .idle → s.inputs = .present p :: rest → decode s.cfg p = .accept i →
      step s = exec i { s with seq := .decode p, inputs := rest }

/-- R19, R181, R185: while a request is outstanding a presentation and a reset have no meaning and are refused by name (log
entry 15). -/
def Obligations.WaitingBlockRefusesPresentationAndReset : Prop :=
  ∀ (s : State) (rest : List Input), validCfg s.cfg = true →
    ((∃ reg k, s.seq = .tRead reg k) ∨ (∃ job, s.seq = .tWrite job)) →
      (∀ p, s.inputs = .present p :: rest → step s = .refused .commandWhileBusy) ∧
      (s.inputs = .reset :: rest → step s = .refused .resetDuringCommand)

/-- R167, R193: a transport that never answers leaves the block stuck in T_READ or T_WRITE; the fault is the model's
form of the stuck block (log entry 6). -/
def Obligations.SilentTransportLeavesBlockStuck : Prop :=
  ∀ s : State, validCfg s.cfg = true → s.inputs = [] →
    ((∃ reg k, s.seq = .tRead reg k) ∨ (∃ job, s.seq = .tWrite job)) → step s = .fault .transportSilent

/-- R42 (d), R167, and for each command R127 to R131 with R125, R126, R72, R77: with no answer at hand a command rests
in T_READ or T_WRITE with its one request out, no response given and no slot changed. That a step ends there is the
model's choice (log entries 1 and 6); the value a WRMSK with gaps writes over a populated slot is the spec's reading D14
(log entry 11). -/
def Obligations.CommandWithoutAnswerRestsWaiting : Prop :=
  ∀ s : State, s.inputs = [] →
    (∀ reg, (Instr.rdreg reg).wf s.cfg = true → s.hit reg.address = false →
      exec (.rdreg reg) s = .next { s with seq := .tRead reg .whole, out := s.out ++ [readOf s reg] }) ∧
    (∀ reg ms, (Instr.rdmsk reg ms).wf s.cfg = true → s.hit reg.address = false →
      exec (.rdmsk reg ms) s = .next { s with seq := .tRead reg (.fields ms), out := s.out ++ [readOf s reg] }) ∧
    (∀ reg v, (Instr.wrreg reg v).wf s.cfg = true →
      exec (.wrreg reg v) s =
        .next { s with seq := .tWrite (.register reg v), out := s.out ++ [writeOf s reg v] }) ∧
    (∀ address aw, (Instr.wrcmd address aw).wf s.cfg = true →
      exec (.wrcmd address aw) s =
        .next { s with
          seq := .tWrite .command,
          out := s.out ++
            [.request (.write s.cfg.devAddr (toDev (effOrder s.cfg) address aw) aw.bytes 0 [])] }) ∧
    (∀ reg e es mv, (Instr.wrmsk reg (e :: es)).wf s.cfg = true → mergeMasks (e :: es) = some mv →
      let m := mergedMask e.mask (es.map Entry.mask)
      (spans reg.width m = true →
        exec (.wrmsk reg (e :: es)) s =
          .next { s with seq := .tWrite (.register reg mv), out := s.out ++ [writeOf s reg mv] }) ∧
      (spans reg.width m = false → s.hit reg.address = false →
        exec (.wrmsk reg (e :: es)) s =
          .next { s with seq := .tRead reg (.merge m mv), out := s.out ++ [readOf s reg] }) ∧
      (∀ cur, spans reg.width m = false → s.hit reg.address = true →
        slotRead s (indexOf s.cfg reg.address) = some cur →
          exec (.wrmsk reg (e :: es)) s =
            .next { s with
              seq := .tWrite (.register reg (applyShifted reg.width m cur mv)),
              out := s.out ++ [writeOf s reg (applyShifted reg.width m cur mv)] }))

/-- R180, R182: reset of an idle block empties every slot and changes nothing else; it sends nothing (the port lists:
log entry 21). -/
def Obligations.ResetEmptiesEverySlot : Prop :=
  ∀ (s : State) (rest : List Input), validCfg s.cfg = true → s.seq = .idle → s.inputs = .reset :: rest →
    ∃ t, step s = .next t ∧ t.cfg = s.cfg ∧ t.seq = .idle ∧ t.inputs = rest ∧ t.out = s.out ∧
      t.memo.length = s.cfg.memo.length ∧ ∀ i, i < s.cfg.memo.length → t.memo[i]? = some ⟨none, false⟩

/-- R24, R110: a newly made instance of any valid configuration meets the invariant, `State.reset`, whose
configuration is the model's choice (log entry 4), among them. -/
def Obligations.FreshInstanceMeetsInvariant : Prop :=
  (∀ cfg : Cfg, validCfg cfg = true → (State.init cfg).Inv) ∧ State.reset.Inv

/-- R14, R15, R110, R114: every step keeps the invariant: the configuration stays valid, there is one slot per
memoized register, a slot has a value exactly when it is populated, and the value fits its register (bits
31:24 of a width-3 value: the spec's reading D13, log entry 13). -/
def Obligations.StepKeepsInstanceInvariant : Prop :=
  ∀ s t : State, s.Inv → step s = .next t → t.Inv

/-- After a step the block is IDLE or waits for the transport: R19 gives the phases and their order and R42 the one
request outstanding. That no step ends in DECODE or RESPOND is the model's choice and no rule's (log entry 1), as is
that a step from such a state, which no step leaves behind, passes on from there (log entry 20). -/
def Obligations.StepRestsIdleOrWaiting : Prop :=
  ∀ s t : State, step s = .next t → t.seq.phase = .idle ∨ t.seq.phase = .tRead ∨ t.seq.phase = .tWrite

/-- R16, R117: no step but a reset makes a populated slot unpopulated. -/
def Obligations.PopulatedSlotStaysPopulated : Prop :=
  ∀ (s t : State) (i : Nat), step s = .next t → (s.seq = .idle → ∀ rest, s.inputs ≠ .reset :: rest) →
    isPopulated s i = true → isPopulated t i = true

/-- R10 to R13: no step changes the configuration. -/
def Obligations.StepKeepsConfiguration : Prop :=
  ∀ s t : State, step s = .next t → t.cfg = s.cfg

/-- R11, R13, U17: an instance is built only of a configuration whose order code is not 3, whose memoized registers
have a legal width (not 0), a legal address width and an address that fits, and whose addresses are distinct; it is
then as reset leaves it. -/
def Obligations.OnlyValidConfigurationsAreBuilt : Prop :=
  ∀ (raw : RawCfg) (s : State), build raw = .next s →
    raw.orderCode ≠ 3 ∧
    (∀ r ∈ raw.memo, r.width ∈ [1, 2, 3, 4, 8] ∧ r.addressWidth ∈ [1, 2, 3, 4, 8] ∧
      r.address < 2 ^ (8 * r.addressWidth)) ∧
    raw.memo.Pairwise (fun a b => a.address ≠ b.address) ∧
    s = State.init s.cfg ∧ s.cfg.memo.length = raw.memo.length ∧ s.cfg.devAddr = raw.devAddr

/-! ### What a command changes, sends and answers (20_memory.md, 30_encoding.md, 43_commands.md) -/

/-- The frame of every command (R10, R37, R42, R115, R129, R134): the configuration stays; no slot changes but the one
of the command's address, and that one only to a value that is marked seen; WRCMD and ISMEMO change no slot; nothing
sent is taken back; of the inputs only transport answers are consumed. -/
def Obligations.CommandFrame : Prop :=
  ∀ (i : Instr) (s t : State), exec i s = .next t →
    t.cfg = s.cfg ∧
    (∀ j, j ≠ indexOf s.cfg i.address → t.memo[j]? = s.memo[j]?) ∧
    (t.memo = s.memo ∨ ∃ v, t.memo = slotsHolding s i.address v) ∧
    ((∀ a aw, i = .wrcmd a aw → t.memo = s.memo) ∧ (∀ a aw w, i = .ismemo a aw w → t.memo = s.memo)) ∧
    (∃ sent, t.out = s.out ++ sent) ∧
    (∃ used : List Answer, s.inputs = used.map Input.answer ++ t.inputs)

/-- R56 to R58: the fields of each kind of response packet. -/
def Obligations.ResponsePacketFields : Prop :=
  (∀ values : List Word, values.length ≤ 15 →
    (Result.ok values).packet.rw.extractLsb' 30 2 = 0 ∧
    ((Result.ok values).packet.rw.extractLsb' 26 4).toNat = values.length ∧
    (Result.ok values).packet.rw.extractLsb' 0 26 = 0 ∧
    (Result.ok values).packet.st = 0 ∧ (Result.ok values).packet.values = values) ∧
  (∀ status : Int, -(2 ^ 63) ≤ status → status < 2 ^ 63 →
    (Result.transportFailure status).packet.rw = 0x40000000 ∧
    (Result.transportFailure status).packet.st.toInt = status ∧
    (Result.transportFailure status).packet.values = []) ∧
  (∀ e : DeclError,
    (Result.declError e).packet.rw = 0x80000000 ∧
    (Result.declError e).packet.st.toNat = e.code ∧ (Result.declError e).packet.values = [])

/-- R56: a presented packet gets exactly one response, given by the step that brings the block back to IDLE and by no
other (where a step ends: log entry 1). -/
def Obligations.EachCommandGetsOneResponse : Prop :=
  ∀ s t : State, (s.seq ≠ .idle ∨ ∃ p rest, s.inputs = .present p :: rest) → step s = .next t →
    (t.seq = .idle → ∃ r, responsesOf t.out = responsesOf s.out ++ [r]) ∧
    (t.seq ≠ .idle → responsesOf t.out = responsesOf s.out)

/-- R135, R136: the transport requests of a completed command; no write follows a failed read. -/
def Obligations.TransportRequestCounts : Prop :=
  ∀ (i : Instr) (s t : State), exec i s = .next t → t.seq = .idle →
    match i with
    | .rdreg _ =>
      readsIn t.out = readsIn s.out + (if s.hit i.address then 0 else 1) ∧ writesIn t.out = writesIn s.out
    | .rdmsk _ _ =>
      readsIn t.out = readsIn s.out + (if s.hit i.address then 0 else 1) ∧ writesIn t.out = writesIn s.out
    | .wrreg _ _ => readsIn t.out = readsIn s.out ∧ writesIn t.out = writesIn s.out + 1
    | .wrcmd _ _ => readsIn t.out = readsIn s.out ∧ writesIn t.out = writesIn s.out + 1
    | .ismemo _ _ _ => readsIn t.out = readsIn s.out ∧ writesIn t.out = writesIn s.out
    | .wrmsk reg entries =>
      ∃ e es, entries = e :: es ∧
        if spans reg.width (mergedMask e.mask (es.map Entry.mask)) = true ∨ s.hit i.address = true then
          readsIn t.out = readsIn s.out ∧ writesIn t.out = writesIn s.out + 1
        else
          readsIn t.out = readsIn s.out + 1 ∧
            ∃ a rest, s.inputs = .answer a :: rest ∧
              writesIn t.out = writesIn s.out + (if a.signed s.cfg < 0 then 0 else 1)

/-- R12, R31, R32, R37, R97: every request a command sends carries the device address unchanged, the command's address
in device order, its width, and exactly the register's number of bytes. -/
def Obligations.RequestsCarryAddressesAndWholeRegisters : Prop :=
  ∀ (i : Instr) (s t : State), exec i s = .next t →
    ∃ sent, t.out = s.out ++ sent ∧ ∀ r ∈ requestsOf sent,
      (∃ w, i.width = some w ∧
        r = .read s.cfg.devAddr (toDev (effOrder s.cfg) i.address i.addressWidth) i.addressWidth.bytes w.bytes) ∨
      (∃ data : List Byte,
        r = .write s.cfg.devAddr (toDev (effOrder s.cfg) i.address i.addressWidth) i.addressWidth.bytes
          data.length data ∧
        data.length = (match i.width with | none => 0 | some w => w.bytes))

/-- R33: for a command that uses the answer, of a non-negative status nothing but its sign matters; which one it is
changes nothing. -/
def Obligations.OnlyTheSignOfASuccessMatters : Prop :=
  ∀ (i : Instr) (s : State) (a b : Answer) (rest : List Input), a.data = b.data → a.succeeds s → b.succeeds s →
    (∀ t, exec i { s with inputs := .answer a :: rest } = .next t → t.inputs ≠ .answer a :: rest) →
      exec i { s with inputs := .answer a :: rest } = exec i { s with inputs := .answer b :: rest }

/-- R34, R42, R167: a command that waited ends as if its answers had been at hand at once (where a step ends:
log entry 1). -/
def Obligations.LateAnswerEndsCommandAlike : Prop :=
  ∀ (i : Instr) (s t : State) (a : Answer) (rest : List Input), validCfg s.cfg = true →
    exec i s = .next t → t.seq ≠ .idle →
      step { t with inputs := .answer a :: rest } = exec i { s with inputs := s.inputs ++ .answer a :: rest }

/-! ### The bit-field unit (40_bitfield.md) -/

/-- R71: a bit mask is `2^(hi+1) - 2^lo`, an integer below `2^BW`, with all bits in `[lo, hi]` set, zero elsewhere. -/
def Obligations.BitmaskCoversExactlyItsField : Prop :=
  ∀ (w : Width) (m : Mask), m.valid w = true →
    ((bitmask m).toNat : Int) = 2 ^ (m.hi + 1) - 2 ^ m.lo ∧ (bitmask m).toNat < 2 ^ backingBits w ∧
    ∀ j, (bitmask m).getLsbD j = (decide (m.lo ≤ j) && decide (j ≤ m.hi))

/-- R74: `shiftOut` is `r[hi:lo]`; it is below `2^(hi-lo+1)`. -/
def Obligations.ShiftOutExtractsTheField : Prop :=
  ∀ (w : Width) (m : Mask) (r : Word), m.valid w = true →
    shiftOut m r = (r &&& bitmask m) >>> m.lo ∧
    (shiftOut m r).toNat = r.toNat / 2 ^ m.lo % 2 ^ (m.hi - m.lo + 1) ∧
    (shiftOut m r).toNat < 2 ^ (m.hi - m.lo + 1)

/-- R75: the shifts are inverses of each other on confined values. -/
def Obligations.ShiftsAreInverse : Prop :=
  ∀ (w : Width) (m : Mask), m.valid w = true →
    (∀ v : Word, v.toNat < 2 ^ (m.hi - m.lo + 1) → shiftOut m (shiftIn m v) = v) ∧
    (∀ r : Word, shiftIn m (shiftOut m r) = r &&& bitmask m)

/-- R76: `applyMask` replaces every bit inside the field and keeps every bit outside it, over the backing width; the
field value is shifted in once. -/
def Obligations.ApplyMaskReplacesExactlyTheField : Prop :=
  ∀ (w : Width) (m : Mask) (original newField : Word), m.valid w = true →
    original.toNat < 2 ^ backingBits w → newField.toNat < 2 ^ (m.hi - m.lo + 1) →
      ∀ j, (applyMask w m original newField).getLsbD j =
        (if m.lo ≤ j ∧ j ≤ m.hi then newField.getLsbD (j - m.lo) else original.getLsbD j)

/-- R77: for one mask, `applyShifted` of the shifted-in value is `applyMask` of the value; and it keeps the original
outside the range and has the shifted value inside. -/
def Obligations.ApplyShiftedReplacesTheRange : Prop :=
  ∀ (w : Width) (m : Mask) (original shifted : Word), m.valid w = true →
    original.toNat < 2 ^ backingBits w →
    (∀ j, ¬(m.lo ≤ j ∧ j ≤ m.hi) → shifted.getLsbD j = false) →
      (∀ j, (applyShifted w m original shifted).getLsbD j =
        (if m.lo ≤ j ∧ j ≤ m.hi then shifted.getLsbD j else original.getLsbD j)) ∧
      ∀ v, applyShifted w m original (shiftIn m v) = applyMask w m original v

/-- R78: the merged value of disjoint masks has every field's value in its place and 0 in every bit of no mask. -/
def Obligations.MergedValueHoldsEveryField : Prop :=
  ∀ (w : Width) (entries : List Entry) (mv : Word),
    (∀ e ∈ entries, e.mask.valid w = true ∧ e.fits = true) → mergeMasks entries = some mv →
      (∀ e ∈ entries, shiftOut e.mask mv = e.value) ∧
      ∀ j, (∀ e ∈ entries, ¬(e.mask.lo ≤ j ∧ j ≤ e.mask.hi)) → mv.getLsbD j = false

/-- R78: "associative, order-independent": the order of the entries does not matter. -/
def Obligations.MergeOrderDoesNotMatter : Prop :=
  ∀ entries entries' : List Entry, entries.Perm entries' → mergeMasks entries = mergeMasks entries'

/-- R78, R133, U1: there is no merged value exactly when some register bit lies in two of the masks. -/
def Obligations.OverlapHasNoMergedValue : Prop :=
  ∀ (w : Width) (entries : List Entry), (∀ e ∈ entries, e.mask.valid w = true) →
    (mergeMasks entries = none ↔ someBitInTwoMasks entries)

/-- R79: the merged mask is `[min lo_i, max hi_i]` and is valid. -/
def Obligations.MergedMaskIsTheLeastRange : Prop :=
  ∀ (w : Width) (m : Mask) (ms : List Mask), (∀ n ∈ m :: ms, n.valid w = true) →
    (mergedMask m ms).valid w = true ∧
    (∀ n ∈ m :: ms, n.hi ≤ (mergedMask m ms).hi ∧ (mergedMask m ms).lo ≤ n.lo) ∧
    (∃ n ∈ m :: ms, n.hi = (mergedMask m ms).hi) ∧ (∃ n ∈ m :: ms, n.lo = (mergedMask m ms).lo)

/-- R72: a mask spans its register exactly when every register bit lies in it. -/
def Obligations.SpanningMaskCoversTheRegister : Prop :=
  ∀ (w : Width) (m : Mask), m.valid w = true →
    (spans w m = true ↔ (m.lo = 0 ∧ m.hi = 8 * w.bytes - 1)) ∧
    (spans w m = true ↔ ∀ b, b < 8 * w.bytes → m.lo ≤ b ∧ b ≤ m.hi)

/-! ### The Endian Normalizer (41_endian.md) -/

/-- R92, R93: byte `i` on the wire is bits `8*i+7:8*i` of the value in `little` order and bits
`8*(W-1-i)+7:8*(W-1-i)` in `big` order, for the width 3 too; there are exactly `W` bytes. -/
def Obligations.DeviceBytesInEachOrder : Prop :=
  ∀ (w : Width) (v : Word),
    (toDev .little v w).length = w.bytes ∧ (toDev .big v w).length = w.bytes ∧
    ∀ i, i < w.bytes →
      (toDev .little v w)[i]? = some (v.extractLsb' (8 * i) 8) ∧
      (toDev .big v w)[i]? = some (v.extractLsb' (8 * (w.bytes - 1 - i)) 8)

/-- R96: both round trips, for every width and order; for width 3 the value's bits 23:0 come back. -/
def Obligations.EndianConversionsRoundTrip : Prop :=
  ∀ (e : Endian) (w : Width),
    (∀ v : Word, (toLocal e (toDev e v w) w).toNat = v.toNat % 2 ^ (8 * w.bytes)) ∧
    (∀ d : List Byte, d.length = w.bytes → toDev e (toLocal e d w) w = d)

/-- R94: what a read of a 3-byte register gives: the bytes placed by the order, bits 31:24 zero (the spec's
reading D13, log entry 13). -/
def Obligations.IrregularWidthReadsThreeBytes : Prop :=
  ∀ d0 d1 d2 : Byte,
    (toLocal .little [d0, d1, d2] .w3).toNat = d0.toNat + 2 ^ 8 * d1.toNat + 2 ^ 16 * d2.toNat ∧
    (toLocal .big [d0, d1, d2] .w3).toNat = d2.toNat + 2 ^ 8 * d1.toNat + 2 ^ 16 * d0.toNat ∧
    ∀ e, (toLocal e [d0, d1, d2] .w3).toNat < 2 ^ 24

/-- R91, R99: `HOST_ORDER` changes what the block does only when `CFG.order = native`. -/
def Obligations.HostOrderMattersOnlyForNative : Prop :=
  ∀ (s : State) (h : Endian), s.cfg.order ≠ .native → step (withHost h s) = mapNext (withHost h) (step s)

/-! ### The Memoization Cache (42_memo.md) -/

/-- R111, R112: `indexOf` is the least slot with the address, `N_MEMO` if there is none. -/
def Obligations.IndexOfFindsTheLeastSlot : Prop :=
  ∀ (cfg : Cfg) (a : Word),
    ((∃ m ∈ cfg.memo, m.address = a) →
      isCacheable cfg (indexOf cfg a) = true ∧ (∃ m, cfg.memo[indexOf cfg a]? = some m ∧ m.address = a) ∧
        ∀ j m, j < indexOf cfg a → cfg.memo[j]? = some m → m.address ≠ a) ∧
    ((∀ m ∈ cfg.memo, m.address ≠ a) →
      indexOf cfg a = cfg.memo.length ∧ isCacheable cfg (indexOf cfg a) = false)

/-- R115, R116: `slotWrite` sets the value and not the flag, `markPopulated` the flag and not the value; both leave
every other slot alone, and marking a populated slot changes nothing. -/
def Obligations.SlotWriteAndMarkEffects : Prop :=
  ∀ (s : State) (i : Nat) (v : Word), i < s.memo.length →
    slotRead (slotWrite i v s) i = some v ∧ isPopulated (slotWrite i v s) i = isPopulated s i ∧
    isPopulated (markPopulated i s) i = true ∧ slotRead (markPopulated i s) i = slotRead s i ∧
    (isPopulated s i = true → markPopulated i s = s) ∧
    ∀ j, j ≠ i → (slotWrite i v s).memo[j]? = s.memo[j]? ∧ (markPopulated i s).memo[j]? = s.memo[j]?

/-! ### The commands (43_commands.md) -/

/-- R127, R125: RDREG. A populated slot answers it with no request; otherwise one transport read, whose success fills
the slot and returns the value and whose failure changes no slot and is reported verbatim. -/
def Obligations.RdregResult : Prop :=
  ∀ (s : State) (reg : Reg), (Instr.rdreg reg).wf s.cfg = true →
    (∀ v, s.hit reg.address = true → slotRead s (indexOf s.cfg reg.address) = some v →
      exec (.rdreg reg) s = .next { s with seq := .idle, out := s.out ++ [okOf [v]] }) ∧
    (∀ a rest, s.hit reg.address = false → s.inputs = .answer a :: rest →
      (a.succeeds s → exec (.rdreg reg) s = .next { s with
        memo := slotsHolding s reg.address (valueRead s reg a), seq := .idle, inputs := rest,
        out := s.out ++ [readOf s reg, okOf [valueRead s reg a]] }) ∧
      (¬a.succeeds s → exec (.rdreg reg) s = .next { s with
        seq := .idle, inputs := rest, out := s.out ++ [readOf s reg, failureOf s a] }))

/-- R128, R126, R47: WRREG. Exactly one transport write, whatever the slots hold; a success puts the local value into
the slot, a failure changes no slot and is reported verbatim. It is encoded as `OPC = 2` with `ADDR` and `VAL`, and a
value that does not fit the width is rejected at decode. -/
def Obligations.WrregResult : Prop :=
  (∀ (s : State) (reg : Reg) (v : Word) (a : Answer) (rest : List Input), (Instr.wrreg reg v).wf s.cfg = true →
    s.inputs = .answer a :: rest →
      (a.succeeds s → exec (.wrreg reg v) s = .next { s with
        memo := slotsHolding s reg.address v, seq := .idle, inputs := rest,
        out := s.out ++ [writeOf s reg v, okOf []] }) ∧
      (¬a.succeeds s → exec (.wrreg reg v) s = .next { s with
        seq := .idle, inputs := rest, out := s.out ++ [writeOf s reg v, failureOf s a] })) ∧
  (∀ (cfg : Cfg) (reg : Reg) (v : Word), (encode (.wrreg reg v)).opc = 2 ∧
    (encode (.wrreg reg v)).w.toNat = reg.width.bytes ∧ (encode (.wrreg reg v)).ops = [reg.address, v] ∧
    (addressFits reg.address reg.addressWidth = true → 2 ^ (8 * reg.width.bytes) ≤ v.toNat →
      decode cfg (encode (.wrreg reg v)) = .reject .valueRange))

/-- R129: WRCMD. One transport write with an empty payload, the address normalised; no slot, whatever the answer. It is
encoded as `OPC = 3`, `W = 0` with `ADDR`, and one to a memoized register's address is rejected at decode. -/
def Obligations.WrcmdResult : Prop :=
  (∀ (s : State) (address : Word) (aw : Width) (a : Answer) (rest : List Input),
    (Instr.wrcmd address aw).wf s.cfg = true → s.inputs = .answer a :: rest →
      exec (.wrcmd address aw) s = .next { s with
        seq := .idle, inputs := rest,
        out := s.out ++
          [.request (.write s.cfg.devAddr (toDev (effOrder s.cfg) address aw) aw.bytes 0 []),
            if a.signed s.cfg < 0 then failureOf s a else okOf []] }) ∧
  (∀ (cfg : Cfg) (address : Word) (aw : Width), (encode (.wrcmd address aw)).opc = 3 ∧
    (encode (.wrcmd address aw)).w = 0 ∧ (encode (.wrcmd address aw)).ops = [address] ∧
    (addressFits address aw = true → (∃ m ∈ cfg.memo, m.address = address) →
      decode cfg (encode (.wrcmd address aw)) = .reject .memoMismatch))

/-- R130: RDMSK. As RDREG, the fields returned in mask order, all from one register value; no field on failure. -/
def Obligations.RdmskResult : Prop :=
  ∀ (s : State) (reg : Reg) (ms : List Mask), (Instr.rdmsk reg ms).wf s.cfg = true →
    (∀ v, s.hit reg.address = true → slotRead s (indexOf s.cfg reg.address) = some v →
      exec (.rdmsk reg ms) s = .next { s with
        seq := .idle, out := s.out ++ [okOf (ms.map fun m => shiftOut m v)] }) ∧
    (∀ a rest, s.hit reg.address = false → s.inputs = .answer a :: rest →
      (a.succeeds s → exec (.rdmsk reg ms) s = .next { s with
        memo := slotsHolding s reg.address (valueRead s reg a), seq := .idle, inputs := rest,
        out := s.out ++ [readOf s reg, okOf (ms.map fun m => shiftOut m (valueRead s reg a))] }) ∧
      (¬a.succeeds s → exec (.rdmsk reg ms) s = .next { s with
        seq := .idle, inputs := rest, out := s.out ++ [readOf s reg, failureOf s a] }))

/-- R131, span path: the merged mask spans the register, so the merged value is written with no read. -/
def Obligations.WrmskSpanningResult : Prop :=
  ∀ (s : State) (reg : Reg) (e : Entry) (es : List Entry) (mv : Word) (a : Answer) (rest : List Input),
    (Instr.wrmsk reg (e :: es)).wf s.cfg = true → mergeMasks (e :: es) = some mv →
    spans reg.width (mergedMask e.mask (es.map Entry.mask)) = true → s.inputs = .answer a :: rest →
      (a.succeeds s → exec (.wrmsk reg (e :: es)) s = .next { s with
        memo := slotsHolding s reg.address mv, seq := .idle, inputs := rest,
        out := s.out ++ [writeOf s reg mv, okOf []] }) ∧
      (¬a.succeeds s → exec (.wrmsk reg (e :: es)) s = .next { s with
        seq := .idle, inputs := rest, out := s.out ++ [writeOf s reg mv, failureOf s a] })

/-- R131, read-modify-write path on a populated slot: no transport read; the merged range of the slot's value is
replaced and the result written (gap bits: the spec's reading D14, log entry 11). -/
def Obligations.WrmskMergesIntoThePopulatedSlot : Prop :=
  ∀ (s : State) (reg : Reg) (e : Entry) (es : List Entry) (mv cur : Word) (a : Answer) (rest : List Input),
    (Instr.wrmsk reg (e :: es)).wf s.cfg = true → mergeMasks (e :: es) = some mv →
    spans reg.width (mergedMask e.mask (es.map Entry.mask)) = false →
    s.hit reg.address = true → slotRead s (indexOf s.cfg reg.address) = some cur → s.inputs = .answer a :: rest →
      let new := applyShifted reg.width (mergedMask e.mask (es.map Entry.mask)) cur mv
      (a.succeeds s → exec (.wrmsk reg (e :: es)) s = .next { s with
        memo := slotsHolding s reg.address new, seq := .idle, inputs := rest,
        out := s.out ++ [writeOf s reg new, okOf []] }) ∧
      (¬a.succeeds s → exec (.wrmsk reg (e :: es)) s = .next { s with
        seq := .idle, inputs := rest, out := s.out ++ [writeOf s reg new, failureOf s a] })

/-- R131, R136, R166, read-modify-write path through the transport: the read's value, cached, has its merged range
replaced and is written; a failed read ends the command with no write; a failed write leaves the slot with the value
read (gap bits: the spec's reading D14, log entry 11). -/
def Obligations.WrmskReadsMergesAndWrites : Prop :=
  ∀ (s : State) (reg : Reg) (e : Entry) (es : List Entry) (mv : Word) (a : Answer) (rest : List Input),
    (Instr.wrmsk reg (e :: es)).wf s.cfg = true → mergeMasks (e :: es) = some mv →
    spans reg.width (mergedMask e.mask (es.map Entry.mask)) = false →
    s.hit reg.address = false → s.inputs = .answer a :: rest →
      let cur := valueRead s reg a
      let new := applyShifted reg.width (mergedMask e.mask (es.map Entry.mask)) cur mv
      (¬a.succeeds s → exec (.wrmsk reg (e :: es)) s = .next { s with
        seq := .idle, inputs := rest, out := s.out ++ [readOf s reg, failureOf s a] }) ∧
      (a.succeeds s → ∀ b rest', rest = .answer b :: rest' →
        (b.succeeds s → exec (.wrmsk reg (e :: es)) s = .next { s with
          memo := slotsHolding s reg.address new, seq := .idle, inputs := rest',
          out := s.out ++ [readOf s reg, writeOf s reg new, okOf []] }) ∧
        (¬b.succeeds s → exec (.wrmsk reg (e :: es)) s = .next { s with
          memo := slotsHolding s reg.address cur, seq := .idle, inputs := rest',
          out := s.out ++ [readOf s reg, writeOf s reg new, failureOf s b] }))

/-- R132, R190, D14: what a WRMSK writes, bit by bit, in both of its paths: a bit in a mask is the field's, a bit of
the merged range in no mask is 0, a bit outside the merged range is the current value's (0 in the gaps
of the read-modify-write path is the spec's reading D14, log entry 11). -/
def Obligations.WrmskGapBitsAreWrittenZero : Prop :=
  ∀ (w : Width) (e : Entry) (es : List Entry) (mv cur : Word),
    (∀ x ∈ e :: es, x.mask.valid w = true ∧ x.fits = true) → mergeMasks (e :: es) = some mv →
    valueFits cur w = true →
      let m := mergedMask e.mask (es.map Entry.mask)
      let new := if spans w m then mv else applyShifted w m cur mv
      ∀ j,
        (∀ x ∈ e :: es, x.mask.lo ≤ j → j ≤ x.mask.hi →
          new.getLsbD j = x.value.getLsbD (j - x.mask.lo)) ∧
        ((∀ x ∈ e :: es, ¬(x.mask.lo ≤ j ∧ j ≤ x.mask.hi)) → m.lo ≤ j → j ≤ m.hi → new.getLsbD j = false) ∧
        (¬(m.lo ≤ j ∧ j ≤ m.hi) → new.getLsbD j = cur.getLsbD j)

/-- R133, R189, U1: a WRMSK in which a register bit lies in two masks passes every check and is refused by name (log
entry 10). -/
def Obligations.OverlappingWrmskIsRefused : Prop :=
  ∀ (s : State) (reg : Reg) (entries : List Entry), (Instr.wrmsk reg entries).wf s.cfg = true →
    someBitInTwoMasks entries → exec (.wrmsk reg entries) s = .refused .overlappingMasks

/-- R134: ISMEMO. 1 iff some memoized register has the address, whatever the slots hold; nothing but the response. -/
def Obligations.IsmemoResult : Prop :=
  ∀ (s : State) (address : Word) (aw : Width) (w : Option Width), (Instr.ismemo address aw w).wf s.cfg = true →
    ((∃ m ∈ s.cfg.memo, m.address = address) →
      exec (.ismemo address aw w) s = .next { s with seq := .idle, out := s.out ++ [okOf [1]] }) ∧
    ((∀ m ∈ s.cfg.memo, m.address ≠ address) →
      exec (.ismemo address aw w) s = .next { s with seq := .idle, out := s.out ++ [okOf [0]] })

/-- R134: whenever ISMEMO is answered 1, the whole descriptor is the memoized entry; a command register never is. -/
def Obligations.IsmemoMatchesTheWholeDescriptor : Prop :=
  ∀ (cfg : Cfg) (address : Word) (aw : Width) (w : Option Width), (Instr.ismemo address aw w).wf cfg = true →
    isCacheable cfg (indexOf cfg address) = true →
      ∃ width, w = some width ∧ (⟨address, aw, width⟩ : Reg) ∈ cfg.memo

/-- R65: a WRMSK of one mask that covers the whole register behaves as WRREG. -/
def Obligations.WholeRegisterMaskWriteIsRegisterWrite : Prop :=
  ∀ (s : State) (reg : Reg) (v : Word), validCfg s.cfg = true → (Instr.wrreg reg v).wf s.cfg = true →
    (Instr.writeMask reg ⟨8 * reg.width.bytes - 1, 0⟩ v).wf s.cfg = true ∧
    exec (Instr.writeMask reg ⟨8 * reg.width.bytes - 1, 0⟩ v) s = exec (.wrreg reg v) s

/-! ### The source's properties (R139 of 43_commands.md) -/

/-- R139 (c), cache transparency: after one successful RDREG of a memoized register, any number `n` of further RDREGs
send no request and return the same value. That each RDREG is one step of the run is the model's choice (log entry
1). -/
def Obligations.CacheTransparency : Prop :=
  ∀ (s : State) (reg : Reg) (a : Answer) (n : Nat) (rest : List Input), s.Inv → s.seq = .idle →
    (Instr.rdreg reg).wf s.cfg = true → isCacheable s.cfg (indexOf s.cfg reg.address) = true →
    s.hit reg.address = false → a.succeeds s →
    s.inputs = .present (encode (.rdreg reg)) :: .answer a ::
      (List.replicate n (.present (encode (.rdreg reg))) ++ rest) →
      Host.Core.run Sys2Proof.core (n + 1) s = .next { s with
        memo := slotsHolding s reg.address (valueRead s reg a), inputs := rest,
        out := s.out ++ (readOf s reg :: List.replicate (n + 1) (okOf [valueRead s reg a])) }

/-- R139 (a), (d), round trip: after a successful WRREG of `v`, RDREG returns `v`: for a memoized register with no
request, for another one when the transport reads back the bytes written. -/
def Obligations.WriteThenReadReturnsTheValue : Prop :=
  ∀ (s : State) (reg : Reg) (v : Word) (a : Answer) (rest : List Input), s.Inv →
    (Instr.wrreg reg v).wf s.cfg = true → s.inputs = .answer a :: rest → a.succeeds s →
      ∃ t, exec (.wrreg reg v) s = .next t ∧ t.seq = .idle ∧ t.inputs = rest ∧
        (isCacheable s.cfg (indexOf s.cfg reg.address) = true →
          exec (.rdreg reg) t = .next { t with out := t.out ++ [okOf [v]] }) ∧
        (isCacheable s.cfg (indexOf s.cfg reg.address) = false → ∀ b rest', rest = .answer b :: rest' →
          b.succeeds s → b.bytes reg.width.bytes = toDev (effOrder s.cfg) v reg.width →
            exec (.rdreg reg) t = .next { t with
              inputs := rest', out := t.out ++ [readOf s reg, okOf [v]] })

/-- R139 (b), masked write preserves untouched bits: after WRREG of `original` and WRMSK of one field both succeed,
the value written is `applyMask(original, field)` and RDREG returns it: for a memoized register with no read request,
for another one when the transport reads back the bytes written. -/
def Obligations.MaskedWritePreservesUntouchedBits : Prop :=
  ∀ (s : State) (reg : Reg) (m : Mask) (original field : Word) (a b : Answer) (rest : List Input), s.Inv →
    (Instr.wrreg reg original).wf s.cfg = true → (Instr.writeMask reg m field).wf s.cfg = true →
    s.inputs = .answer a :: .answer b :: rest → a.succeeds s → b.succeeds s →
      let new := applyMask reg.width m original field
      ∃ t, exec (.wrreg reg original) s = .next t ∧
        (isCacheable s.cfg (indexOf s.cfg reg.address) = true →
          ∃ u, exec (Instr.writeMask reg m field) t = .next u ∧
            u.out = t.out ++ [writeOf s reg new, okOf []] ∧
            exec (.rdreg reg) u = .next { u with out := u.out ++ [okOf [new]] }) ∧
        (isCacheable s.cfg (indexOf s.cfg reg.address) = false → spans reg.width m = true → ∀ c rest',
          rest = .answer c :: rest' → c.succeeds s → c.bytes reg.width.bytes = toDev (effOrder s.cfg) new reg.width →
            ∃ u, exec (Instr.writeMask reg m field) t = .next u ∧
              u.out = t.out ++ [writeOf s reg new, okOf []] ∧
              exec (.rdreg reg) u = .next { u with
                inputs := rest', out := u.out ++ [readOf s reg, okOf [new]] }) ∧
        (isCacheable s.cfg (indexOf s.cfg reg.address) = false → spans reg.width m = false → ∀ c d rest',
          rest = .answer c :: .answer d :: rest' → c.succeeds s → d.succeeds s →
          b.bytes reg.width.bytes = toDev (effOrder s.cfg) original reg.width →
          d.bytes reg.width.bytes = toDev (effOrder s.cfg) new reg.width →
            ∃ u, exec (Instr.writeMask reg m field) t = .next u ∧
              u.out = t.out ++ [readOf s reg, writeOf s reg new, okOf []] ∧
              exec (.rdreg reg) u = .next { u with
                inputs := rest', out := u.out ++ [readOf s reg, okOf [new]] })

/-- R139 (e), merge correctness: after a successful WRREG of `x`, RDMSK returns the field of `x` in each mask: for a
memoized register with no transport read, for another one with one, when the transport reads back the bytes
written. -/
def Obligations.MaskedReadAfterWriteReturnsTheFields : Prop :=
  ∀ (s : State) (reg : Reg) (x : Word) (ms : List Mask) (a : Answer) (rest : List Input), s.Inv →
    (Instr.wrreg reg x).wf s.cfg = true → (Instr.rdmsk reg ms).wf s.cfg = true →
    s.inputs = .answer a :: rest → a.succeeds s →
      ∃ t, exec (.wrreg reg x) s = .next t ∧
        (isCacheable s.cfg (indexOf s.cfg reg.address) = true →
          exec (.rdmsk reg ms) t = .next { t with out := t.out ++ [okOf (ms.map fun m => shiftOut m x)] }) ∧
        (isCacheable s.cfg (indexOf s.cfg reg.address) = false → ∀ b rest', rest = .answer b :: rest' →
          b.succeeds s → b.bytes reg.width.bytes = toDev (effOrder s.cfg) x reg.width →
            exec (.rdmsk reg ms) t = .next { t with
              inputs := rest', out := t.out ++ [readOf s reg, okOf (ms.map fun m => shiftOut m x)] })
end

