-- ==== Sys2Proof/Laws/Decode.lean ====
section
/-! SUPPORT. How each encoding function is undone by the decoding function beside it, and what the decoder answers,
check by check (30_encoding.md R51 to R63). -/

namespace Sys2Proof

/-! ### Control words, opcodes, widths -/

/-- Bit `i` of a control word (R51). -/
theorem cw_field (o w a n : BitVec 4) (i : Nat) (hi : i < 32) :
    (controlWord o w a n).getLsbD i =
      if i < 16 then false else if i < 20 then n.getLsbD (i - 16) else if i < 24 then a.getLsbD (i - 20)
      else if i < 28 then w.getLsbD (i - 24) else o.getLsbD (i - 28) := by
  simp only [controlWord, BitVec.getLsbD_append]
  split_ifs <;> first | omega | simp | congr 1

@[simp] theorem opc_controlWord (o w a n : BitVec 4) (ops : List Word) :
    (Packet.mk (controlWord o w a n) ops).opc = o := by
  apply BitVec.eq_of_getLsbD_eq
  intro i hi
  rw [Packet.opc, BitVec.getLsbD_extractLsb', cw_field _ _ _ _ _ (by omega)]
  simp [hi, show ¬(28 + i < 16) by omega, show ¬(28 + i < 20) by omega, show ¬(28 + i < 24) by omega]

@[simp] theorem w_controlWord (o w a n : BitVec 4) (ops : List Word) :
    (Packet.mk (controlWord o w a n) ops).w = w := by
  apply BitVec.eq_of_getLsbD_eq
  intro i hi
  rw [Packet.w, BitVec.getLsbD_extractLsb', cw_field _ _ _ _ _ (by omega)]
  simp [hi, show ¬(24 + i < 16) by omega, show ¬(24 + i < 20) by omega, show (24 + i < 28) by omega]

@[simp] theorem aw_controlWord (o w a n : BitVec 4) (ops : List Word) :
    (Packet.mk (controlWord o w a n) ops).aw = a := by
  apply BitVec.eq_of_getLsbD_eq
  intro i hi
  rw [Packet.aw, BitVec.getLsbD_extractLsb', cw_field _ _ _ _ _ (by omega)]
  simp [hi, show ¬(20 + i < 16) by omega, show (20 + i < 24) by omega]

@[simp] theorem nm_controlWord (o w a n : BitVec 4) (ops : List Word) :
    (Packet.mk (controlWord o w a n) ops).nm = n := by
  apply BitVec.eq_of_getLsbD_eq
  intro i hi
  rw [Packet.nm, BitVec.getLsbD_extractLsb', cw_field _ _ _ _ _ (by omega)]
  simp [hi, show (16 + i < 20) by omega]

@[simp] theorem rsv_controlWord (o w a n : BitVec 4) (ops : List Word) :
    (Packet.mk (controlWord o w a n) ops).rsv = 0 := by
  apply BitVec.eq_of_getLsbD_eq
  intro i hi
  rw [Packet.rsv, BitVec.getLsbD_extractLsb', cw_field _ _ _ _ _ (by omega)]
  simp [hi]

/-- A control word whose reserved field is 0 is the control word of its fields (R51). -/
theorem controlWord_of_fields (p : Packet) (h : p.rsv = 0) : controlWord p.opc p.w p.aw p.nm = p.cw := by
  apply BitVec.eq_of_getLsbD_eq
  intro i hi
  rw [cw_field _ _ _ _ _ hi]
  have hr : i < 16 → p.cw.getLsbD i = false := by
    intro h16
    have := congrArg (fun x => x.getLsbD i) h
    simpa [Packet.rsv, h16] using this
  simp only [Packet.opc, Packet.w, Packet.aw, Packet.nm, BitVec.getLsbD_extractLsb']
  split_ifs with h1 h2 h3 h4
  · exact (hr h1).symm
  · simp [show i - 16 < 4 by omega, show 16 + (i - 16) = i by omega]
  · simp [show i - 20 < 4 by omega, show 20 + (i - 20) = i by omega]
  · simp [show i - 24 < 4 by omega, show 24 + (i - 24) = i by omega]
  · simp [show i - 28 < 4 by omega, show 28 + (i - 28) = i by omega]

theorem opcode_ofField_field (op : Opcode) : Opcode.ofField op.field = some op := by cases op <;> rfl

theorem opcode_field_of {b : BitVec 4} {op : Opcode} (h : Opcode.ofField b = some op) : op.field = b := by
  revert h; revert op; revert b; decide
theorem width_ofField_field (w : Width) : Width.ofField w.field = some w := by cases w <;> rfl
theorem width_field_of {b : BitVec 4} {w : Width} (h : Width.ofField b = some w) : w.field = b := by
  revert h; revert w; revert b; decide
theorem widthOf_field_of {op : Opcode} {b : BitVec 4} {w : Option Width} (h : op.widthOf b = some w) : widthField w = b := by
  have width : ∀ {c : BitVec 4} {x : Option Width}, (Width.ofField c).map some = some x → widthField x = c := by
    intro c x hx
    obtain ⟨y, hy, rfl⟩ := Option.map_eq_some_iff.1 hx
    exact width_field_of hy
  cases op
  case wrcmd => simp only [Opcode.widthOf] at h; split_ifs at h with hb; cases h; exact hb.symm
  case ismemo =>
    simp only [Opcode.widthOf, anyWidthOfField] at h
    split_ifs at h with hb
    · cases h; exact hb.symm
    · exact width h
  all_goals exact width h

theorem widthOf_widthField_some {op : Opcode} (h : op ≠ .wrcmd) (w : Width) : op.widthOf w.field = some (some w) := by
  cases op <;> cases w <;> first | rfl | exact absurd rfl h

theorem cleanMask_bit (i : Nat) (hi : i < 64) :
    (0x3F3F#64).getLsbD i = (decide (i < 6) || (decide (8 ≤ i) && decide (i < 14))) := by
  have : ∀ j : Fin 64, (0x3F3F#64).getLsbD j = (decide (j.val < 6) || (decide (8 ≤ j.val) && decide (j.val < 14))) := by
    decide
  exact this ⟨i, hi⟩

/-- Bit `i` of a mask word: `lo` at bits 5:0, `hi` at bits 13:8 (R52). -/
theorem mask_word_bit (m : Mask) (i : Nat) (hi : i < 64) :
    m.word.getLsbD i =
      ((decide (i < 6) && m.lo.testBit i) || (decide (8 ≤ i) && decide (i < 14) && m.hi.testBit (i - 8))) := by
  simp only [Mask.word, BitVec.getLsbD_or, BitVec.getLsbD_shiftLeft, BitVec.getLsbD_setWidth, BitVec.getLsbD_ofNat]
  by_cases h1 : i < 6
  · simp [h1, show i < 8 by omega, show ¬(8 ≤ i) by omega, hi]
  · by_cases h2 : i < 8
    · simp [h1, h2, hi, show ¬ (8 ≤ i) by omega]
    · by_cases h3 : i < 14
      · simp [h1, h2, h3, hi, show 8 ≤ i by omega, show i - 8 < 6 by omega, show i - 8 < 64 by omega]
      · simp [h1, h2, h3, show ¬(i - 8 < 6) by omega]

theorem mask_word_clean (m : Mask) : maskWordClean m.word = true := by
  simp only [maskWordClean, decide_eq_true_eq]
  apply BitVec.eq_of_getLsbD_eq
  intro i hi
  rw [BitVec.getLsbD_and, mask_word_bit m i hi, BitVec.getLsbD_not, cleanMask_bit i hi]
  by_cases h1 : i < 6 <;> by_cases h2 : 8 ≤ i <;> by_cases h3 : i < 14 <;> simp [h1, h2, h3]

/-- A mask word's fields are the mask's (R52). -/
theorem mask_ofWord_word (m : Mask) (h1 : m.hi < 64) (h2 : m.lo < 64) : Mask.ofWord m.word = m := by
  have e1 : (m.word.extractLsb' 8 6) = BitVec.ofNat 6 m.hi := by
    apply BitVec.eq_of_getLsbD_eq
    intro i hi
    rw [BitVec.getLsbD_extractLsb', mask_word_bit m _ (by omega), BitVec.getLsbD_ofNat]
    simp [hi, show ¬(8 + i < 6) by omega, show 8 + i < 14 by omega]
  have e2 : (m.word.extractLsb' 0 6) = BitVec.ofNat 6 m.lo := by
    apply BitVec.eq_of_getLsbD_eq
    intro i hi
    rw [BitVec.getLsbD_extractLsb', mask_word_bit m _ (by omega), BitVec.getLsbD_ofNat]
    simp [hi, show ¬(8 ≤ i) by omega]
  simp only [Mask.ofWord, e1, e2, BitVec.toNat_ofNat]
  rw [Nat.mod_eq_of_lt h1, Nat.mod_eq_of_lt h2]

/-- A mask word that sets no reserved bit is the word of its fields (R52, R61). -/
theorem mask_word_ofWord {mw : Word} (h : maskWordClean mw = true) : (Mask.ofWord mw).word = mw := by
  have hc : mw &&& ~~~(0x3F3F#64) = 0 := by simpa [maskWordClean] using h
  apply BitVec.eq_of_getLsbD_eq
  intro i hi
  have hb := congrArg (fun x => x.getLsbD i) hc
  simp only [BitVec.getLsbD_and, BitVec.getLsbD_not, cleanMask_bit i hi, hi] at hb
  rw [mask_word_bit _ i hi]
  have e1 : (Mask.ofWord mw).lo.testBit i = (decide (i < 6) && mw.getLsbD i) := by
    show (mw.extractLsb' 0 6).getLsbD i = _
    rw [BitVec.getLsbD_extractLsb']; simp
  have e2 : (Mask.ofWord mw).hi.testBit (i - 8) = (decide (i - 8 < 6) && mw.getLsbD (8 + (i - 8))) := by
    show (mw.extractLsb' 8 6).getLsbD (i - 8) = _
    rw [BitVec.getLsbD_extractLsb']
  rw [e1, e2]
  by_cases h1 : i < 6
  · simp [h1, show ¬(8 ≤ i) by omega]
  · by_cases h2 : 8 ≤ i
    · by_cases h3 : i < 14
      · rw [show 8 + (i - 8) = i by omega]
        simp [h1, h2, h3, show i - 8 < 6 by omega]
      · have : mw.getLsbD i = false := by simpa [h1, h2, h3] using hb
        simp [h1, h2, h3, this]
    · have : mw.getLsbD i = false := by simpa [h1, h2] using hb
      simp [h1, h2, this]

/-! ### Operand lists -/

theorem masks_roundtrip (ms : List Mask) (h : ∀ m ∈ ms, m.hi < 64 ∧ m.lo < 64) :
    (ms.map Mask.word).map Mask.ofWord = ms := by
  induction ms with
  | nil => rfl
  | cons m ms ih =>
    have hm := h m (by simp)
    simp only [List.map_cons, mask_ofWord_word m hm.1 hm.2, ih fun k hk => h k (by simp [hk])]

theorem entries_roundtrip (es : List Entry) (h : ∀ e ∈ es, e.mask.hi < 64 ∧ e.mask.lo < 64) :
    entriesOfWords (wordsOfEntries es) = es := by
  induction es with
  | nil => rfl
  | cons e es ih =>
    have he := h e (by simp)
    simp only [wordsOfEntries, entriesOfWords, mask_ofWord_word _ he.1 he.2, ih fun k hk => h k (by simp [hk])]

theorem wordsOfEntries_length (es : List Entry) : (wordsOfEntries es).length = 2 * es.length := by
  induction es with
  | nil => rfl
  | cons e es ih => simp only [wordsOfEntries, List.length_cons, ih]; omega

theorem evenWords_clean (es : List Entry) : (evenWords (wordsOfEntries es)).all maskWordClean = true := by
  induction es with
  | nil => rfl
  | cons e es ih => simp only [wordsOfEntries, evenWords, List.all_cons, mask_word_clean, ih, Bool.and_self]

/-- The pairs of an even number of words, and back (R53). -/
theorem words_roundtrip : ∀ ws : List Word, ws.length % 2 = 0 → (evenWords ws).all maskWordClean = true →
    wordsOfEntries (entriesOfWords ws) = ws
  | [], _, _ => rfl
  | [_], h, _ => by simp at h
  | mw :: fv :: rest, h, hc => by
    simp only [evenWords, List.all_cons, Bool.and_eq_true] at hc
    simp only [entriesOfWords, wordsOfEntries, mask_word_ofWord hc.1]
    rw [words_roundtrip rest (by simp only [List.length_cons] at h; omega) hc.2]

theorem entriesOfWords_length : ∀ ws : List Word, ws.length % 2 = 0 → 2 * (entriesOfWords ws).length = ws.length
  | [], _ => rfl
  | [_], h => by simp at h
  | _ :: _ :: rest, h => by
    have := entriesOfWords_length rest (by simp only [List.length_cons] at h; omega)
    simp only [entriesOfWords, List.length_cons]
    omega

theorem masks_words_roundtrip (ws : List Word) (h : ws.all maskWordClean = true) :
    (ws.map Mask.ofWord).map Mask.word = ws := by
  induction ws with
  | nil => rfl
  | cons w ws ih =>
    simp only [List.all_cons, Bool.and_eq_true] at h
    simp only [List.map_cons, mask_word_ofWord h.1, ih h.2]

/-! ### The decoder, once: one equation per check of R60, in the order of its table -/

theorem decode_badOpcode {cfg : Cfg} {p : Packet} (hop : Opcode.ofField p.opc = none) :
    decode cfg p = .reject .badOpcode := by
  simp [decode, hop]

theorem decode_badReserved {cfg : Cfg} {p : Packet} {op : Opcode} (hop : Opcode.ofField p.opc = some op)
    (hr : ¬p.rsv = 0#16) : decode cfg p = .reject .badReserved := by
  simp [decode, hop, hr]

theorem decode_badWidth {cfg : Cfg} {p : Packet} {op : Opcode} (hop : Opcode.ofField p.opc = some op)
    (hr : p.rsv = 0#16) (hw : op.widthOf p.w = none) : decode cfg p = .reject .badWidth := by
  simp [decode, hop, hr, hw]

theorem decode_badAddrWidth {cfg : Cfg} {p : Packet} {op : Opcode} {w : Option Width}
    (hop : Opcode.ofField p.opc = some op) (hr : p.rsv = 0#16) (hw : op.widthOf p.w = some w)
    (haw : Width.ofField p.aw = none) : decode cfg p = .reject .badAddrWidth := by
  simp [decode, hop, hr, hw, haw]

theorem decode_badNm {cfg : Cfg} {p : Packet} {op : Opcode} {w : Option Width} {aw : Width}
    (hop : Opcode.ofField p.opc = some op) (hr : p.rsv = 0#16) (hw : op.widthOf p.w = some w)
    (haw : Width.ofField p.aw = some aw) (hn : op.countAllowed cfg p.nm = false) :
    decode cfg p = .reject .badNm := by
  simp [decode, hop, hr, hw, haw, hn]

theorem decode_badLength {cfg : Cfg} {p : Packet} {op : Opcode} {w : Option Width} {aw : Width}
    (hop : Opcode.ofField p.opc = some op) (hr : p.rsv = 0#16) (hw : op.widthOf p.w = some w)
    (haw : Width.ofField p.aw = some aw) (hn : op.countAllowed cfg p.nm = true)
    (hl : ¬p.ops.length = op.operandWords p.nm) : decode cfg p = .reject .badLength := by
  simp [decode, hop, hr, hw, haw, hn, hl]

/-- A packet that passes checks 1 to 6 assembles to a command (R63). -/
theorem assemble_isSome {op : Opcode} {nm b : BitVec 4} {w : Option Width} (aw : Width) {ops : List Word}
    (hw : op.widthOf b = some w) (hl : ops.length = op.operandWords nm) :
    ∃ i, assemble op w aw ops = some i := by
  have some_of : ∀ {c : BitVec 4} {x : Option Width}, (Width.ofField c).map some = some x → ∃ y, x = some y := by
    intro c x hx
    obtain ⟨y, -, rfl⟩ := Option.map_eq_some_iff.1 hx
    exact ⟨y, rfl⟩
  cases op
  case rdreg =>
    obtain ⟨y, rfl⟩ := some_of hw
    obtain ⟨a, rfl⟩ := List.length_eq_one_iff.1 hl
    exact ⟨_, rfl⟩
  case wrreg =>
    obtain ⟨y, rfl⟩ := some_of hw
    obtain ⟨a, v, rfl⟩ := List.length_eq_two.1 hl
    exact ⟨_, rfl⟩
  case wrcmd =>
    obtain ⟨a, rfl⟩ := List.length_eq_one_iff.1 hl
    simp only [Opcode.widthOf] at hw
    split_ifs at hw
    cases hw
    exact ⟨_, rfl⟩
  case rdmsk =>
    obtain ⟨y, rfl⟩ := some_of hw
    cases ops with
    | nil => simp only [List.length_nil, Opcode.operandWords] at hl; omega
    | cons a ms => exact ⟨_, rfl⟩
  case wrmsk =>
    obtain ⟨y, rfl⟩ := some_of hw
    cases ops with
    | nil => simp only [List.length_nil, Opcode.operandWords] at hl; omega
    | cons a ms => exact ⟨_, rfl⟩
  case ismemo =>
    obtain ⟨a, rfl⟩ := List.length_eq_one_iff.1 hl
    exact ⟨_, rfl⟩

/-- What assembling can give (R63). -/
theorem assemble_cases {op : Opcode} {w : Option Width} {aw : Width} {ops : List Word} {i : Instr}
    (h : assemble op w aw ops = some i) :
    (∃ wd a, op = .rdreg ∧ w = some wd ∧ ops = [a] ∧ i = .rdreg ⟨a, aw, wd⟩) ∨
    (∃ wd a v, op = .wrreg ∧ w = some wd ∧ ops = [a, v] ∧ i = .wrreg ⟨a, aw, wd⟩ v) ∨
    (∃ a, op = .wrcmd ∧ w = none ∧ ops = [a] ∧ i = .wrcmd a aw) ∨
    (∃ wd a ms, op = .rdmsk ∧ w = some wd ∧ ops = a :: ms ∧ i = .rdmsk ⟨a, aw, wd⟩ (ms.map Mask.ofWord)) ∨
    (∃ wd a ws, op = .wrmsk ∧ w = some wd ∧ ops = a :: ws ∧ i = .wrmsk ⟨a, aw, wd⟩ (entriesOfWords ws)) ∨
    (∃ a, op = .ismemo ∧ ops = [a] ∧ i = .ismemo a aw w) := by
  simp only [assemble] at h
  split at h <;> cases h
  · exact .inl ⟨_, _, rfl, rfl, rfl, rfl⟩
  · exact .inr (.inl ⟨_, _, _, rfl, rfl, rfl, rfl⟩)
  · exact .inr (.inr (.inl ⟨_, rfl, rfl, rfl, rfl⟩))
  · exact .inr (.inr (.inr (.inl ⟨_, _, _, rfl, rfl, rfl, rfl⟩)))
  · exact .inr (.inr (.inr (.inr (.inl ⟨_, _, _, rfl, rfl, rfl, rfl⟩))))
  · exact .inr (.inr (.inr (.inr (.inr ⟨_, rfl, rfl, rfl⟩))))

/-- After checks 1 to 6 the decoder is checks 7 to 10 on the assembled command (R60, R63). -/
theorem decode_of_checks {cfg : Cfg} {p : Packet} {op : Opcode} {w : Option Width} {aw : Width} {i : Instr}
    (hop : Opcode.ofField p.opc = some op) (hr : p.rsv = 0#16) (hw : op.widthOf p.w = some w)
    (haw : Width.ofField p.aw = some aw) (hn : op.countAllowed cfg p.nm = true)
    (hl : p.ops.length = op.operandWords p.nm) (hj : assemble op w aw p.ops = some i) :
    decode cfg p = checkOperands cfg ((op.maskWords p.ops).all maskWordClean) i := by
  simp [decode, hop, hr, hw, haw, hn, hl, hj]

/-- Checks 7 to 10 all passed. -/
theorem checkOperands_accept {cfg : Cfg} {clean : Bool} {i j : Instr} (h : checkOperands cfg clean i = .accept j) :
    i = j ∧ clean = true ∧ i.addressLegal = true ∧ i.masksLegal = true ∧ i.valuesLegal = true ∧
      i.shapeLegal cfg = true := by
  simp only [checkOperands] at h
  split_ifs at h with h1 h2 h3 h4
  cases h
  simp only [Bool.not_eq_false, Bool.and_eq_true] at h1 h2 h3 h4
  exact ⟨rfl, h2.1, h1, h2.2, h3, h4⟩

/-- What acceptance says: every check passed and the command is the assembled one (R60, R63). -/
theorem decode_accept {cfg : Cfg} {p : Packet} {i : Instr} (h : decode cfg p = .accept i) :
    ∃ op w aw, Opcode.ofField p.opc = some op ∧ p.rsv = 0#16 ∧ op.widthOf p.w = some w ∧
      Width.ofField p.aw = some aw ∧ op.countAllowed cfg p.nm = true ∧ p.ops.length = op.operandWords p.nm ∧
      assemble op w aw p.ops = some i ∧ (op.maskWords p.ops).all maskWordClean = true ∧ i.addressLegal = true ∧
      i.masksLegal = true ∧ i.valuesLegal = true ∧ i.shapeLegal cfg = true := by
  cases hop : Opcode.ofField p.opc with
  | none => rw [decode_badOpcode hop] at h; cases h
  | some op =>
  by_cases hr : p.rsv = 0#16
  swap
  · rw [decode_badReserved hop hr] at h; cases h
  cases hw : op.widthOf p.w with
  | none => rw [decode_badWidth hop hr hw] at h; cases h
  | some w =>
  cases haw : Width.ofField p.aw with
  | none => rw [decode_badAddrWidth hop hr hw haw] at h; cases h
  | some aw =>
  cases hn : op.countAllowed cfg p.nm with
  | false => rw [decode_badNm hop hr hw haw hn] at h; cases h
  | true =>
  by_cases hl : p.ops.length = op.operandWords p.nm
  swap
  · rw [decode_badLength hop hr hw haw hn hl] at h; cases h
  obtain ⟨j, hj⟩ := assemble_isSome aw hw hl
  rw [decode_of_checks hop hr hw haw hn hl hj] at h
  obtain ⟨rfl, h1, h2, h3, h4, h5⟩ := checkOperands_accept h
  exact ⟨op, w, aw, rfl, hr, hw, rfl, hn, hl, hj, h1, h2, h3, h4, h5⟩

end Sys2Proof
end

