-- ==== Sys2Proof/Laws/Operands.lean ====
section
/-! SUPPORT. What the pure functions compute, bit by bit and byte by byte (40_bitfield.md, 41_endian.md), and the
bounds their results keep. -/

namespace Sys2Proof.Machine

open Sys2Proof

/-! ### Widths and masks -/

theorem bytes_pos (w : Width) : 1 ≤ w.bytes := by cases w <;> decide
theorem bytes_le_eight (w : Width) : w.bytes ≤ 8 := by cases w <;> decide
theorem bytes_le_backing (w : Width) : 8 * w.bytes ≤ backingBits w := by cases w <;> decide
theorem backing_le_64 (w : Width) : backingBits w ≤ 64 := by cases w <;> decide

theorem mask_valid_iff (w : Width) (m : Mask) : m.valid w = true ↔ m.lo ≤ m.hi ∧ m.hi < 8 * w.bytes := by
  simp [Mask.valid]

theorem mask_hi_lt_64 {w : Width} {m : Mask} (h : m.valid w = true) : m.hi < 64 := by
  have h1 := ((mask_valid_iff w m).1 h).2
  have h2 := bytes_le_eight w
  omega

theorem valueFits_iff (v : Word) (w : Width) : valueFits v w = true ↔ v.toNat < 2 ^ (8 * w.bytes) := by
  simp [valueFits]

theorem entry_fits_iff (e : Entry) : e.fits = true ↔ e.value.toNat < 2 ^ (e.mask.hi - e.mask.lo + 1) := by
  simp [Entry.fits]

/-- A number below `2^n` has no bit at or above `n`, and conversely. -/
theorem toNat_lt_iff_bits (v : Word) (n : Nat) : v.toNat < 2 ^ n ↔ ∀ j, n ≤ j → v.getLsbD j = false := by
  constructor
  · intro h j hj
    rw [BitVec.getLsbD, Nat.testBit_lt_two_pow (Nat.lt_of_lt_of_le h (Nat.pow_le_pow_right (by decide) hj))]
  · intro h
    apply Nat.lt_pow_two_of_testBit
    intro j hj
    exact h j hj

/-! ### The bit-field unit -/

/-- Bit `j` of a bit mask is set exactly inside the range (R71). -/
theorem bitmask_bit {w : Width} {m : Mask} (h : m.valid w = true) (j : Nat) :
    (bitmask m).getLsbD j = (decide (m.lo ≤ j) && decide (j ≤ m.hi)) := by
  have hv := (mask_valid_iff w m).1 h
  have h64 := mask_hi_lt_64 h
  have e : 2 ^ (m.hi + 1) - 2 ^ m.lo = (2 ^ (m.hi + 1 - m.lo) - 1) <<< m.lo := by
    rw [Nat.shiftLeft_eq, Nat.sub_mul, ← Nat.pow_add]
    congr 2 <;> omega
  simp only [bitmask, e, BitVec.getLsbD_ofNat, Nat.testBit_shiftLeft, Nat.testBit_two_pow_sub_one]
  by_cases h1 : m.lo ≤ j <;> by_cases h2 : j ≤ m.hi <;> simp [h1, h2] <;> omega

/-- Bit `j` of a complement within `n` bits (R6 of 00_scope.md), of a value of `n` bits. -/
theorem complementWithin_bit {n : Nat} (hn : n ≤ 64) {v : Word} (hv : v.toNat < 2 ^ n) (j : Nat) :
    (complementWithin n v).getLsbD j = (decide (j < n) && !v.getLsbD j) := by
  have e : 2 ^ n - 1 - v.toNat = 2 ^ n - (v.toNat + 1) := by omega
  simp only [complementWithin, e, BitVec.getLsbD_ofNat, Nat.testBit_two_pow_sub_succ hv]
  by_cases h1 : j < n
  · have : j < 64 := by omega
    simp [h1, this, BitVec.getLsbD]
  · simp [h1]

theorem bitmask_lt_backing {w : Width} {m : Mask} (h : m.valid w = true) :
    (bitmask m).toNat < 2 ^ backingBits w := by
  rw [toNat_lt_iff_bits]
  intro j hj
  have hv := (mask_valid_iff w m).1 h
  have := bytes_le_backing w
  rw [bitmask_bit h]
  simp
  omega

/-- Bit `j` of what is kept of the original outside the range (R76, R77). -/
theorem keep_bit {w : Width} {m : Mask} (h : m.valid w = true) (o : Word) (j : Nat) :
    (o &&& complementWithin (backingBits w) (bitmask m)).getLsbD j =
      (o.getLsbD j && decide (j < backingBits w) && !(decide (m.lo ≤ j) && decide (j ≤ m.hi))) := by
  rw [BitVec.getLsbD_and, complementWithin_bit (backing_le_64 w) (bitmask_lt_backing h), bitmask_bit h, Bool.and_assoc]

/-- Bit `j` of a field value moved into place (R73). -/
theorem shiftIn_bit (m : Mask) (v : Word) (j : Nat) :
    (shiftIn m v).getLsbD j = (decide (j < 64) && decide (m.lo ≤ j) && v.getLsbD (j - m.lo)) := by
  simp only [shiftIn, BitVec.getLsbD_shiftLeft]
  by_cases h1 : j < 64 <;> by_cases h2 : m.lo ≤ j <;> simp [h1, h2]

/-- A confined field value moved into place has no bit outside its range (R73). -/
theorem shiftIn_bit_outside {m : Mask} {v : Word} (hlo : m.lo ≤ m.hi) (hv : v.toNat < 2 ^ (m.hi - m.lo + 1)) {j : Nat}
    (hj : ¬(m.lo ≤ j ∧ j ≤ m.hi)) : (shiftIn m v).getLsbD j = false := by
  rw [shiftIn_bit]
  by_cases h : m.lo ≤ j
  · rw [(toNat_lt_iff_bits v _).1 hv (j - m.lo) (by omega), Bool.and_false]
  · simp [h]

/-- Bit `j` of an extracted field (R74). -/
theorem shiftOut_bit {w : Width} {m : Mask} (h : m.valid w = true) (r : Word) (j : Nat) :
    (shiftOut m r).getLsbD j = (decide (j ≤ m.hi - m.lo) && r.getLsbD (m.lo + j)) := by
  have hv := (mask_valid_iff w m).1 h
  have h64 := mask_hi_lt_64 h
  simp only [shiftOut, BitVec.getLsbD_ushiftRight, BitVec.getLsbD_and, bitmask_bit h]
  by_cases h1 : j ≤ m.hi - m.lo <;> simp [h1] <;> omega

theorem pairwiseDisjoint_cons (m : Mask) (ms : List Mask) :
    pairwiseDisjoint (m :: ms) = true ↔ (∀ n ∈ ms, m.hi < n.lo ∨ n.hi < m.lo) ∧ pairwiseDisjoint ms = true := by
  simp [pairwiseDisjoint, maskDisjoint]

theorem orOfShifted_bit (es : List Entry) (j : Nat) :
    (orOfShifted es).getLsbD j = es.any fun e => (shiftIn e.mask e.value).getLsbD j := by
  induction es with
  | nil => simp [orOfShifted]
  | cons e es ih => simp [orOfShifted, BitVec.getLsbD_or, ih]

/-- A merged value has no bit outside the masks (R78). -/
theorem orOfShifted_bit_outside {w : Width} {es : List Entry} (hv : ∀ e ∈ es, e.mask.valid w = true)
    (hf : ∀ e ∈ es, e.fits = true) {j : Nat} (hj : ∀ e ∈ es, ¬(e.mask.lo ≤ j ∧ j ≤ e.mask.hi)) :
    (orOfShifted es).getLsbD j = false := by
  rw [orOfShifted_bit, List.any_eq_false]
  intro e he
  have hve := (mask_valid_iff w _).1 (hv e he)
  rw [shiftIn_bit_outside hve.1 ((entry_fits_iff e).1 (hf e he)) (hj e he)]
  decide

/-- A merged value fits the register (R78, R80). -/
theorem orOfShifted_fits {w : Width} {es : List Entry} (hv : ∀ e ∈ es, e.mask.valid w = true)
    (hf : ∀ e ∈ es, e.fits = true) : valueFits (orOfShifted es) w = true := by
  rw [valueFits_iff, toNat_lt_iff_bits]
  intro j hj
  apply orOfShifted_bit_outside hv hf
  intro e he
  have := ((mask_valid_iff w _).1 (hv e he)).2
  omega

/-- A merged value is the OR of the shifted-in values of disjoint masks (R78). -/
theorem mergeMasks_some {es : List Entry} {mv : Word} (h : mergeMasks es = some mv) :
    pairwiseDisjoint (es.map Entry.mask) = true ∧ mv = orOfShifted es := by
  simp only [mergeMasks] at h
  split_ifs at h with h1
  cases h; exact ⟨h1, rfl⟩

/-- A merged value has a field's bits in its range (R78). -/
theorem orOfShifted_bit_inside {w : Width} {es : List Entry} (hv : ∀ e ∈ es, e.mask.valid w = true)
    (hf : ∀ e ∈ es, e.fits = true) (hd : pairwiseDisjoint (es.map Entry.mask) = true) {e : Entry} (he : e ∈ es)
    {j : Nat} (h1 : e.mask.lo ≤ j) (h2 : j ≤ e.mask.hi) :
    (orOfShifted es).getLsbD j = e.value.getLsbD (j - e.mask.lo) := by
  induction es with
  | nil => cases he
  | cons x xs ih =>
    rw [List.map_cons, pairwiseDisjoint_cons] at hd
    rw [orOfShifted, BitVec.getLsbD_or]
    have hx := (mask_valid_iff w _).1 (hv x (by simp))
    have hex := (mask_valid_iff w _).1 (hv e he)
    have h64 := mask_hi_lt_64 (hv e he)
    rcases List.mem_cons.1 he with rfl | he'
    · rw [orOfShifted_bit_outside (w := w) (fun y hy => hv y (by simp [hy])) (fun y hy => hf y (by simp [hy])),
        shiftIn_bit]
      · have : j < 64 := by omega
        simp [this, h1]
      · intro y hy
        have := hd.1 _ (List.mem_map_of_mem hy)
        omega
    · rw [ih (fun y hy => hv y (by simp [hy])) (fun y hy => hf y (by simp [hy])) hd.2 he',
        shiftIn_bit_outside hx.1 ((entry_fits_iff x).1 (hf x (by simp)))]
      · simp
      · have := hd.1 _ (List.mem_map_of_mem he')
        omega

/-- The merged range is the least one around its masks (R79). -/
theorem mergedMask_bounds (m : Mask) (ms : List Mask) :
    m.hi ≤ (mergedMask m ms).hi ∧ (mergedMask m ms).lo ≤ m.lo ∧
      ∀ n ∈ ms, n.hi ≤ (mergedMask m ms).hi ∧ (mergedMask m ms).lo ≤ n.lo := by
  induction ms generalizing m with
  | nil => simp [mergedMask]
  | cons n ms ih =>
    obtain ⟨h1, h2, h3⟩ := ih (maskJoin m n)
    have e : mergedMask m (n :: ms) = mergedMask (maskJoin m n) ms := rfl
    have hh : (maskJoin m n).hi = max m.hi n.hi := rfl
    have hl : (maskJoin m n).lo = min m.lo n.lo := rfl
    rw [e]
    refine ⟨by omega, by omega, ?_⟩
    intro k hk
    rcases List.mem_cons.1 hk with rfl | hk
    · omega
    · exact h3 k hk

/-- The merged mask of valid masks is valid (R79). -/
theorem mergedMask_valid {w : Width} {m : Mask} {ms : List Mask} (hm : m.valid w = true)
    (hms : ∀ n ∈ ms, n.valid w = true) : (mergedMask m ms).valid w = true := by
  induction ms generalizing m with
  | nil => exact hm
  | cons n ms ih =>
    have e : mergedMask m (n :: ms) = mergedMask (maskJoin m n) ms := rfl
    rw [e]
    apply ih
    · have h1 := (mask_valid_iff w m).1 hm
      have h2 := (mask_valid_iff w n).1 (hms n (by simp))
      rw [mask_valid_iff]
      simp only [maskJoin]
      omega
    · intro k hk
      exact hms k (by simp [hk])

/-- Merging a value that fits into a value that fits gives a value that fits. -/
theorem applyShifted_fits {w : Width} {m : Mask} (h : m.valid w = true) {o v : Word}
    (ho : valueFits o w = true) (hv : valueFits v w = true) : valueFits (applyShifted w m o v) w = true := by
  rw [valueFits_iff, toNat_lt_iff_bits] at *
  intro j hj
  rw [applyShifted, BitVec.getLsbD_or, keep_bit h, ho j hj, hv j hj]
  simp

/-! ### The Endian Normalizer -/

@[simp] theorem toDev_length (e : Endian) (v : Word) (w : Width) : (toDev e v w).length = w.bytes := by
  cases w <;> cases e <;> rfl

@[simp] theorem answer_bytes_length (a : Answer) (w : Width) : (a.bytes w.bytes).length = w.bytes := by
  have := bytes_le_eight w
  simp [Answer.bytes]
  omega

theorem littleSum_lt (d : List Byte) : littleSum d < 2 ^ (8 * d.length) := by
  induction d with
  | nil => simp [littleSum]
  | cons b bs ih =>
    have hb := b.isLt
    have e : 2 ^ (8 * (b :: bs).length) = 2 ^ 8 * 2 ^ (8 * bs.length) := by
      rw [← Nat.pow_add]; congr 1; simp; omega
    rw [e]
    simp only [littleSum]
    omega

theorem toLocalRegular_lt (e : Endian) (d : List Byte) : (toLocalRegular e d).toNat < 2 ^ (8 * d.length) := by
  have h1 := littleSum_lt d
  have h2 := littleSum_lt d.reverse
  rw [List.length_reverse] at h2
  cases e
  · exact Nat.lt_of_le_of_lt (by simpa [toLocalRegular] using Nat.mod_le _ _) h1
  · exact Nat.lt_of_le_of_lt (by simpa [toLocalRegular] using Nat.mod_le _ _) h2

/-- Bytes taken least significant first, put together again (R92, R95). -/
theorem littleSum_bytes (n : Nat) (v : Word) : littleSum (littleBytes n v) = v.toNat % 2 ^ (8 * n) := by
  have gen : ∀ n k, littleSum ((List.range' k n).map fun i => byteOf v i) = v.toNat / 2^(8*k) % 2 ^ (8 * n) := by
    intro n
    induction n with
    | zero => intro k; simp [littleSum, Nat.mod_one]
    | succ n ih =>
      intro k
      simp only [List.range'_succ, List.map_cons, littleSum, ih]
      simp only [byteOf, BitVec.extractLsb'_toNat, Nat.shiftRight_eq_div_pow]
      rw [show 8 * (k+1) = 8*k + 8 by omega, show 8 * (n+1) = 8 + 8*n by omega, Nat.pow_add, Nat.pow_add,
        ← Nat.div_div_eq_div_mul, Nat.mod_mul]
  have := gen n 0
  rw [littleBytes, List.range_eq_range']
  simpa using this

/-- The two orders are each other's reverse (R92). -/
theorem bigBytes_reverse (n : Nat) (v : Word) : (bigBytes n v).reverse = littleBytes n v := by
  apply List.ext_getElem
  · simp [bigBytes, littleBytes]
  · intro i h1 h2
    have hi : i < n := by simpa [bigBytes] using h1
    simp [bigBytes, littleBytes]
    congr 1; omega

/-- A byte list of at most 8 bytes, put together and taken apart again (R95, R92). -/
theorem littleBytes_sum (d : List Byte) (hd : d.length ≤ 8) : littleBytes d.length (BitVec.ofNat 64 (littleSum d)) = d := by
  have gen : ∀ (d : List Byte) i (h : i < d.length), littleSum d / 2^(8*i) % 2^8 = d[i].toNat := by
    intro d
    induction d with
    | nil => intro i h; simp at h
    | cons b bs ih =>
      intro i h
      have hb := b.isLt
      cases i with
      | zero => simp [littleSum]; omega
      | succ i =>
        have := ih i (by simpa using h)
        simp only [littleSum, List.getElem_cons_succ]
        rw [show 8*(i+1) = 8 + 8*i by omega, Nat.pow_add, ← Nat.div_div_eq_div_mul,
          Nat.add_mul_div_left _ _ (by decide), Nat.div_eq_of_lt hb, Nat.zero_add]
        exact this
  have hlt := littleSum_lt d
  have : 2 ^ (8*d.length) ≤ 2^64 := Nat.pow_le_pow_right (by decide) (by omega)
  apply List.ext_getElem
  · simp [littleBytes]
  · intro i h1 h2
    apply BitVec.eq_of_toNat_eq
    simp only [littleBytes, List.getElem_map, List.getElem_range, byteOf, BitVec.extractLsb'_toNat,
      Nat.shiftRight_eq_div_pow, BitVec.toNat_ofNat]
    rw [Nat.mod_eq_of_lt (by omega : littleSum d < 2^64)]
    exact gen d i h2

/-- A 3-byte concatenation as a number (R94). -/
theorem concat3_toNat (x y z : Byte) :
    ((0x00#8 ++ x ++ y ++ z).setWidth 64).toNat = (x.toNat * 2 ^ 8 + y.toNat) * 2 ^ 8 + z.toNat := by
  have hx := x.isLt
  have hy := y.isLt
  have hz := z.isLt
  simp only [BitVec.toNat_setWidth, BitVec.toNat_append, ← Nat.shiftLeft_add_eq_or_of_lt hx,
    ← Nat.shiftLeft_add_eq_or_of_lt hy, ← Nat.shiftLeft_add_eq_or_of_lt hz]
  simp only [Nat.shiftLeft_eq, BitVec.toNat_ofNat]
  omega

theorem toLocal3_lt (e : Endian) (d : List Byte) : (toLocal3 e d).toNat < 2 ^ 24 := by
  have h0 := (d.getD 0 0).isLt
  have h1 := (d.getD 1 0).isLt
  have h2 := (d.getD 2 0).isLt
  cases e <;> simp only [toLocal3, concat3_toNat] <;> omega

/-- What a read of a register gives fits the register: for width 3, bits 31:24 are 0 (R94, R95). -/
theorem toLocal_fits (e : Endian) (d : List Byte) (w : Width) (h : d.length = w.bytes) :
    valueFits (toLocal e d w) w = true := by
  rw [valueFits_iff]
  cases w
  case w3 => exact toLocal3_lt e d
  all_goals (rw [← h]; exact toLocalRegular_lt e d)

end Sys2Proof.Machine
end

