-- ==== Sys2Proof/Laws/State.lean ====
section
/-! SUPPORT. What each update of the state leaves in each field; true by unfolding once, so that no later proof unfolds
an update again. -/

namespace Sys2Proof.Machine

open Sys2Proof

@[simp] theorem markPopulated_cfg (i : Nat) (s : State) : (markPopulated i s).cfg = s.cfg := rfl
@[simp] theorem markPopulated_seq (i : Nat) (s : State) : (markPopulated i s).seq = s.seq := rfl
@[simp] theorem markPopulated_inputs (i : Nat) (s : State) : (markPopulated i s).inputs = s.inputs := rfl
@[simp] theorem markPopulated_out (i : Nat) (s : State) : (markPopulated i s).out = s.out := rfl

@[simp] theorem slotWrite_cfg (i : Nat) (v : Word) (s : State) : (slotWrite i v s).cfg = s.cfg := rfl
@[simp] theorem slotWrite_seq (i : Nat) (v : Word) (s : State) : (slotWrite i v s).seq = s.seq := rfl
@[simp] theorem slotWrite_inputs (i : Nat) (v : Word) (s : State) : (slotWrite i v s).inputs = s.inputs := rfl
@[simp] theorem slotWrite_out (i : Nat) (v : Word) (s : State) : (slotWrite i v s).out = s.out := rfl

@[simp] theorem cache_cfg (a v : Word) (s : State) : (cache a v s).cfg = s.cfg := by
  simp only [cache]; split <;> rfl
@[simp] theorem cache_seq (a v : Word) (s : State) : (cache a v s).seq = s.seq := by
  simp only [cache]; split <;> rfl
@[simp] theorem cache_inputs (a v : Word) (s : State) : (cache a v s).inputs = s.inputs := by
  simp only [cache]; split <;> rfl
@[simp] theorem cache_out (a v : Word) (s : State) : (cache a v s).out = s.out := by
  simp only [cache]; split <;> rfl

@[simp] theorem emit_cfg (o : Output) (s : State) : (emit o s).cfg = s.cfg := rfl
@[simp] theorem emit_memo (o : Output) (s : State) : (emit o s).memo = s.memo := rfl
@[simp] theorem emit_seq (o : Output) (s : State) : (emit o s).seq = s.seq := rfl
@[simp] theorem emit_inputs (o : Output) (s : State) : (emit o s).inputs = s.inputs := rfl
@[simp] theorem emit_out (o : Output) (s : State) : (emit o s).out = s.out ++ [o] := rfl

@[simp] theorem respond_cfg (r : Result) (s : State) : (respond r s).cfg = s.cfg := rfl
@[simp] theorem respond_memo (r : Result) (s : State) : (respond r s).memo = s.memo := rfl
@[simp] theorem respond_seq (r : Result) (s : State) : (respond r s).seq = .idle := rfl
@[simp] theorem respond_inputs (r : Result) (s : State) : (respond r s).inputs = s.inputs := rfl
@[simp] theorem respond_out (r : Result) (s : State) : (respond r s).out = s.out ++ [.response r.packet] := rfl

@[simp] theorem latch_cfg (p : Packet) (l : List Input) (s : State) : (latch p l s).cfg = s.cfg := rfl
@[simp] theorem latch_memo (p : Packet) (l : List Input) (s : State) : (latch p l s).memo = s.memo := rfl
@[simp] theorem latch_seq (p : Packet) (l : List Input) (s : State) : (latch p l s).seq = .decode p := rfl
@[simp] theorem latch_inputs (p : Packet) (l : List Input) (s : State) : (latch p l s).inputs = l := rfl
@[simp] theorem latch_out (p : Packet) (l : List Input) (s : State) : (latch p l s).out = s.out := rfl

@[simp] theorem placePacket_cfg (p : Packet) (s : State) : (placePacket p s).cfg = s.cfg := rfl
@[simp] theorem placePacket_memo (p : Packet) (s : State) : (placePacket p s).memo = s.memo := rfl
@[simp] theorem placePacket_seq (p : Packet) (s : State) : (placePacket p s).seq = .idle := rfl
@[simp] theorem placePacket_inputs (p : Packet) (s : State) :
    (placePacket p s).inputs = .present p :: s.inputs := rfl
@[simp] theorem placePacket_out (p : Packet) (s : State) : (placePacket p s).out = s.out := rfl

@[simp] theorem resetBlock_cfg (s : State) : (resetBlock s).cfg = s.cfg := rfl
@[simp] theorem resetBlock_memo (s : State) :
    (resetBlock s).memo = List.replicate s.cfg.memo.length Slot.unpopulated := rfl
@[simp] theorem resetBlock_seq (s : State) : (resetBlock s).seq = .idle := rfl
@[simp] theorem resetBlock_inputs (s : State) : (resetBlock s).inputs = s.inputs := rfl
@[simp] theorem resetBlock_out (s : State) : (resetBlock s).out = s.out := rfl

/-- Writing a slot and marking it (R115, R116) together replace it by the value, seen. -/
theorem markPopulated_slotWrite_memo (i : Nat) (v : Word) (s : State) :
    (markPopulated i (slotWrite i v s)).memo = s.memo.set i ⟨some v, true⟩ := by
  simp only [markPopulated, slotWrite]
  apply List.ext_getElem?
  intro j
  rw [List.getElem?_modify, List.getElem?_modify, List.getElem?_set]
  split_ifs with h1 h2
  · subst h1; simp [h2]
  · subst h1; simp [List.getElem?_eq_none (Nat.le_of_not_lt h2)]
  · simp

/-- What `cache` leaves in the slots. -/
theorem cache_memo (a v : Word) (s : State) :
    (cache a v s).memo =
      if isCacheable s.cfg (indexOf s.cfg a) then s.memo.set (indexOf s.cfg a) ⟨some v, true⟩ else s.memo := by
  simp only [cache]
  split
  · exact markPopulated_slotWrite_memo _ _ _
  · rfl

@[simp] theorem cache_memo_length (a v : Word) (s : State) : (cache a v s).memo.length = s.memo.length := by
  rw [cache_memo]; split <;> simp

/-- `cache` changes no slot but the one of its address. -/
theorem cache_memo_frame (a v : Word) (s : State) (j : Nat) (h : j ≠ indexOf s.cfg a) :
    (cache a v s).memo[j]? = s.memo[j]? := by
  rw [cache_memo]
  split
  · rw [List.getElem?_set_ne (Ne.symm h)]
  · rfl

end Sys2Proof.Machine
end

