-- ==== Sys2Proof/Laws/Ops.lean ====
section
/-! SUPPORT. What the shared operations of the engine can do: one lemma per operation, cited instead of unfolding it,
and the closure lemma `exec_closed`, from which a property that every elementary move keeps follows for every
command. -/

namespace Sys2Proof.Machine

open Sys2Proof

/-! ### The cache primitives -/

/-- `indexOf` answers the first slot with the address (R111 of 42_memo.md). -/
theorem indexOf_lt {cfg : Cfg} {a : Word} (h : indexOf cfg a < cfg.memo.length) :
    ∃ m, cfg.memo[indexOf cfg a]? = some m ∧ m.address = a := by
  refine ⟨cfg.memo[indexOf cfg a], List.getElem?_eq_getElem h, ?_⟩
  exact of_decide_eq_true (List.findIdx_getElem (p := fun m : Reg => decide (m.address = a)) (w := h))

theorem indexOf_le (cfg : Cfg) (a : Word) : indexOf cfg a ≤ cfg.memo.length := List.findIdx_le_length

/-- A usable register that has a slot has the slot's own width and address width (R114, check 10 of R60). -/
theorem shape_of_slot {cfg : Cfg} {a : Word} {aw : Width} {w : Option Width} (h : shapeMatches cfg a aw w = true)
    {m : Reg} (hm : m ∈ cfg.memo) (ha : m.address = a) : m.addressWidth = aw ∧ some m.width = w := by
  have := List.all_eq_true.1 h m hm
  simpa [ha] using this

theorem slotsAgree_length {regs : List Reg} {slots : List Slot} (h : slotsAgree regs slots = true) :
    slots.length = regs.length := by
  induction regs generalizing slots with
  | nil => cases slots <;> simp_all [slotsAgree]
  | cons r rs ih =>
    cases slots with
    | nil => simp [slotsAgree] at h
    | cons x xs =>
      simp only [slotsAgree, Bool.and_eq_true] at h
      simp [ih h.2]

theorem slotsAgree_get {regs : List Reg} {slots : List Slot} (h : slotsAgree regs slots = true) {i : Nat} {r : Reg}
    {x : Slot} (hr : regs[i]? = some r) (hx : slots[i]? = some x) : x.agrees r = true := by
  induction regs generalizing slots i with
  | nil => simp at hr
  | cons r' rs ih =>
    cases slots with
    | nil => simp at hx
    | cons x' xs =>
      simp only [slotsAgree, Bool.and_eq_true] at h
      cases i with
      | zero =>
        simp only [List.getElem?_cons_zero, Option.some.injEq] at hr hx
        subst hr; subst hx
        exact h.1
      | succ i =>
        simp only [List.getElem?_cons_succ] at hr hx
        exact ih h.2 hr hx

theorem slotsAgree_set {regs : List Reg} {slots : List Slot} (h : slotsAgree regs slots = true) (i : Nat) (x : Slot)
    (hx : ∀ r, regs[i]? = some r → x.agrees r = true) : slotsAgree regs (slots.set i x) = true := by
  induction regs generalizing slots i with
  | nil => cases slots <;> simp_all [slotsAgree]
  | cons r rs ih =>
    cases slots with
    | nil => simp [slotsAgree] at h
    | cons y ys =>
      simp only [slotsAgree, Bool.and_eq_true] at h
      cases i with
      | zero =>
        simp only [List.set_cons_zero, slotsAgree, Bool.and_eq_true]
        exact ⟨hx r rfl, h.2⟩
      | succ i =>
        simp only [List.set_cons_succ, slotsAgree, Bool.and_eq_true]
        exact ⟨h.1, ih h.2 i (fun r' hr' => hx r' hr')⟩

theorem slotsAgree_unpopulated (regs : List Reg) :
    slotsAgree regs (List.replicate regs.length Slot.unpopulated) = true := by
  induction regs with
  | nil => rfl
  | cons r rs ih =>
    rw [List.length_cons, List.replicate_succ, slotsAgree, ih]
    rfl

/-- Caching a value that fits the register keeps the slots in agreement (R14, R114). -/
theorem cache_slotsAgree {s : State} {a : Word} {aw w : Width} {v : Word}
    (hs : slotsAgree s.cfg.memo s.memo = true) (hm : shapeMatches s.cfg a aw (some w) = true)
    (hv : valueFits v w = true) : slotsAgree s.cfg.memo (cache a v s).memo = true := by
  rw [cache_memo]
  split
  · refine slotsAgree_set hs _ _ ?_
    intro r hr
    rename_i hc
    obtain ⟨m, hm1, hm2⟩ := indexOf_lt (by simpa [isCacheable] using hc)
    rw [hr, Option.some.injEq] at hm1
    subst hm1
    have := (shape_of_slot hm (List.mem_of_getElem? hr) hm2).2
    simp only [Option.some.injEq] at this
    simp [Slot.agrees, this, hv]
  · exact hs

/-- What a populated slot holds fits the register a usable command reads through it (R14, R114). -/
theorem slotRead_fits {s : State} {a : Word} {aw w : Width} {v : Word}
    (hs : slotsAgree s.cfg.memo s.memo = true) (hm : shapeMatches s.cfg a aw (some w) = true)
    (hc : isCacheable s.cfg (indexOf s.cfg a) = true) (hv : slotRead s (indexOf s.cfg a) = some v) :
    valueFits v w = true := by
  obtain ⟨m, hm1, hm2⟩ := indexOf_lt (by simpa [isCacheable] using hc)
  simp only [slotRead] at hv
  split at hv
  · rename_i x hx
    have := slotsAgree_get hs hm1 hx
    have e := (shape_of_slot hm (List.mem_of_getElem? hm1) hm2).2
    simp only [Option.some.injEq] at e
    simp only [Slot.agrees, hv, Bool.and_eq_true] at this
    rw [← e]; exact this.2
  · cases hv

/-- A populated slot holds a value (R14, R15). -/
theorem hit_has_value {s : State} {a : Word} (hs : slotsAgree s.cfg.memo s.memo = true) (hh : s.hit a = true) :
    ∃ v, slotRead s (indexOf s.cfg a) = some v := by
  simp only [State.hit, Bool.and_eq_true] at hh
  obtain ⟨m, hm1, -⟩ := indexOf_lt (by simpa [isCacheable] using hh.1)
  have hp := hh.2
  simp only [isPopulated] at hp
  split at hp
  · rename_i x hx
    have := slotsAgree_get hs hm1 hx
    cases hval : x.val with
    | none => simp [Slot.agrees, hval, hp] at this
    | some v => exact ⟨v, by simp [slotRead, hx, hval]⟩
  · cases hp

/-- The register named by a command without a width has no slot (check 10 of R60). -/
theorem command_not_cacheable {cfg : Cfg} {a : Word} {aw : Width} (h : shapeMatches cfg a aw none = true) :
    isCacheable cfg (indexOf cfg a) = false := by
  by_contra hc
  obtain ⟨m, hm1, hm2⟩ := indexOf_lt (cfg := cfg) (a := a) (by simpa [isCacheable] using hc)
  cases (shape_of_slot h (List.mem_of_getElem? hm1) hm2).2

/-! ### Waiting for the transport -/

/-- What waiting for an answer can do (R19, R34, R167). -/
theorem awaitAnswer_next {q : Seq} {k : Answer → State → StepResult} {s t : State}
    (h : awaitAnswer q k s = .next t) :
    (s.inputs = [] ∧ t = { s with seq := q }) ∨
      ∃ a rest, s.inputs = .answer a :: rest ∧ k a { s with inputs := rest } = .next t := by
  simp only [awaitAnswer] at h
  split at h
  · rename_i e; cases h; exact .inl ⟨e, rfl⟩
  · rename_i a rest e; exact .inr ⟨a, rest, e, h⟩
  · cases h
  · cases h

theorem awaitAnswer_silent {q : Seq} {k : Answer → State → StepResult} {s : State} (h : s.inputs = []) :
    awaitAnswer q k s = .next { s with seq := q } := by
  simp [awaitAnswer, h]

theorem awaitAnswer_answer {q : Seq} {k : Answer → State → StepResult} {s : State} {a : Answer} {rest : List Input}
    (h : s.inputs = .answer a :: rest) : awaitAnswer q k s = k a { s with inputs := rest } := by
  simp [awaitAnswer, h]

theorem awaitAnswer_present {q : Seq} {k : Answer → State → StepResult} {s : State} {p : Packet} {rest : List Input}
    (h : s.inputs = .present p :: rest) : awaitAnswer q k s = .refused .commandWhileBusy := by
  simp [awaitAnswer, h]

theorem awaitAnswer_reset {q : Seq} {k : Answer → State → StepResult} {s : State} {rest : List Input}
    (h : s.inputs = .reset :: rest) : awaitAnswer q k s = .refused .resetDuringCommand := by
  simp [awaitAnswer, h]

/-! ### Answers -/

/-- What the answer to a write does, case by case (R126, R129, R161). -/
theorem onWriteAnswer_eq (job : WriteJob) (a : Answer) (s : State) :
    onWriteAnswer job a s =
      .next
        (if a.signed s.cfg < 0 then failTransport (a.signed s.cfg) s
        else
          match job with
          | .register reg v => returnOk [] (cache reg.address v s)
          | .command => returnOk [] s) := by
  simp only [onWriteAnswer]
  split_ifs
  · rfl
  · cases job <;> rfl

/-- A failed read ends the command, the slots untouched (R125, R136, R161). -/
theorem onReadAnswer_failed {reg : Reg} {k : AfterRead} {a : Answer} {s : State} (h : a.signed s.cfg < 0) :
    onReadAnswer reg k a s = .next (failTransport (a.signed s.cfg) s) := by
  simp [onReadAnswer, h]

/-- A successful read converts the bytes, caches the value and goes on (R125). -/
theorem onReadAnswer_ok {reg : Reg} {k : AfterRead} {a : Answer} {s : State} (h : 0 ≤ a.signed s.cfg) :
    onReadAnswer reg k a s =
      afterRead reg k (toLocal (effOrder s.cfg) (a.bytes reg.width.bytes) reg.width)
        (cache reg.address (toLocal (effOrder s.cfg) (a.bytes reg.width.bytes) reg.width) s) := by
  simp [onReadAnswer, not_lt.2 h]

/-! ### The internal procedures -/

/-- A cache hit: no request (R125). -/
theorem readReg_hit {reg : Reg} {k : AfterRead} {s : State} {v : Word} (hh : s.hit reg.address = true)
    (hv : slotRead s (indexOf s.cfg reg.address) = some v) : readReg reg k s = afterRead reg k v s := by
  simp only [State.hit] at hh
  simp only [readReg, hh, if_true, hv]

/-- A cache miss: one read request (R125). -/
theorem readReg_miss {reg : Reg} {k : AfterRead} {s : State} (hh : s.hit reg.address = false) :
    readReg reg k s = awaitRead reg k (emit (.request (readRequest s.cfg reg)) s) := by
  simp only [State.hit] at hh
  simp [readReg, hh]

/-- What `ReadReg` can do (R125). -/
theorem readReg_next {reg : Reg} {k : AfterRead} {s t : State} (h : readReg reg k s = .next t) :
    (∃ v, s.hit reg.address = true ∧ slotRead s (indexOf s.cfg reg.address) = some v ∧
        afterRead reg k v s = .next t) ∨
      (s.hit reg.address = false ∧ awaitRead reg k (emit (.request (readRequest s.cfg reg)) s) = .next t) := by
  cases hh : s.hit reg.address with
  | true =>
    left
    cases hv : slotRead s (indexOf s.cfg reg.address) with
    | none =>
      simp only [State.hit] at hh
      simp [readReg, hh, hv] at h
    | some v => exact ⟨v, rfl, rfl, by rwa [readReg_hit hh hv] at h⟩
  | false =>
    right
    exact ⟨rfl, by rwa [readReg_miss hh] at h⟩

/-- A meaning that answers a next state was handed a valid command. -/
theorem whenValid_next {i : Instr} {s t : State} {m : StepResult} (h : whenValid i s m = .next t) :
    i.wf s.cfg = true ∧ m = .next t := by
  simp only [whenValid] at h
  split at h
  · exact ⟨‹_›, h⟩
  · cases h

/-- `exec` answers a next state only for a valid command. -/
theorem exec_next_wf {i : Instr} {s t : State} (h : exec i s = .next t) : i.wf s.cfg = true := by
  cases i <;> exact (whenValid_next h).1

@[simp] theorem whenValid_of_wf {i : Instr} {s : State} {m : StepResult} (h : i.wf s.cfg = true) :
    whenValid i s m = m := by
  simp [whenValid, h]

/-! ### What a well-formed command says about its parts -/

theorem wf_parts {cfg : Cfg} {i : Instr} (h : i.wf cfg = true) :
    i.countLegal cfg = true ∧ i.addressLegal = true ∧ i.masksLegal = true ∧ i.valuesLegal = true ∧
      i.shapeLegal cfg = true := by
  simpa [Instr.wf, Bool.and_eq_true, and_assoc] using h

theorem wf_usable {cfg : Cfg} {i : Instr} (h : i.wf cfg = true) {reg : Reg} (ha : i.address = reg.address)
    (haw : i.addressWidth = reg.addressWidth) (hw : i.width = some reg.width) : regUsable cfg reg = true := by
  obtain ⟨-, h1, -, -, h2⟩ := wf_parts h
  simp only [Instr.addressLegal, Instr.shapeLegal, ha, haw, hw] at h1 h2
  simp [regUsable, h1, h2]

theorem usable_shape {cfg : Cfg} {reg : Reg} (h : regUsable cfg reg = true) :
    shapeMatches cfg reg.address reg.addressWidth (some reg.width) = true := by
  simp only [regUsable, Bool.and_eq_true] at h
  exact h.2

/-- The merged value and merged mask of a valid WRMSK (R78, R79). -/
theorem wrmsk_merged {cfg : Cfg} {reg : Reg} {e : Entry} {es : List Entry} {mv : Word}
    (h : (Instr.wrmsk reg (e :: es)).wf cfg = true) (hmv : mergeMasks (e :: es) = some mv) :
    (mergedMask e.mask (es.map Entry.mask)).valid reg.width = true ∧ valueFits mv reg.width = true ∧
      mv = orOfShifted (e :: es) := by
  obtain ⟨-, -, hm, hv, -⟩ := wf_parts h
  simp only [Instr.masksLegal, Instr.valuesLegal, List.all_eq_true] at hm hv
  simp only [mergeMasks] at hmv
  split at hmv
  · cases hmv
    refine ⟨mergedMask_valid (hm e (by simp)) ?_, orOfShifted_fits hm hv, rfl⟩
    intro n hn
    obtain ⟨x, hx, rfl⟩ := List.mem_map.1 hn
    exact hm x (by simp [hx])
  · cases hmv

/-! ### The closure lemma -/

/-- The elementary moves of a command on the register at `address`: each keeps `P` while the command is in progress,
and the two that end it for this step, responding and resting, lead from `P` to `D`. `F` is what is known of the values
the command caches, `Q` of the phases it rests in, `R` of the requests it sends. -/
structure Closed (c : Cfg) (address : Word) (F : Word → Prop) (Q : Seq → Prop) (R : Request → Prop)
    (P D : State → Prop) : Prop where
  cfg : ∀ s, P s → s.cfg = c
  request : ∀ s r, R r → P s → P (emit (.request r) s)
  respond : ∀ s r, P s → D (respond r s)
  take : ∀ s a l, s.inputs = .answer a :: l → P s → P { s with inputs := l }
  rest : ∀ s q, s.inputs = [] → Q q → P s → D { s with seq := q }
  cache : ∀ s v, F v → P s → P (cache address v s)

theorem onWriteAnswer_closed {c : Cfg} {address : Word} {F : Word → Prop} {Q : Seq → Prop} {R : Request → Prop}
    {P D : State → Prop} (hc : Closed c address F Q R P D) {job : WriteJob}
    (hj : ∀ reg v, job = .register reg v → reg.address = address ∧ F v) {a : Answer} {s t : State} (hs : P s)
    (h : onWriteAnswer job a s = .next t) : D t := by
  rw [onWriteAnswer_eq] at h
  split_ifs at h
  · cases h; exact hc.respond _ _ hs
  · cases job with
    | command => cases h; exact hc.respond _ _ hs
    | register reg v =>
      obtain ⟨ha, hF⟩ := hj reg v rfl
      subst ha
      cases h
      exact hc.respond _ _ (hc.cache _ v hF hs)

theorem awaitWrite_closed {c : Cfg} {address : Word} {F : Word → Prop} {Q : Seq → Prop} {R : Request → Prop}
    {P D : State → Prop} (hc : Closed c address F Q R P D) {job : WriteJob} (hq : Q (.tWrite job))
    (hj : ∀ reg v, job = .register reg v → reg.address = address ∧ F v) {s t : State} (hs : P s)
    (h : awaitWrite job s = .next t) : D t := by
  rcases awaitAnswer_next h with ⟨hi, rfl⟩ | ⟨a, l, hi, h⟩
  · exact hc.rest s _ hi hq hs
  · exact onWriteAnswer_closed hc hj (hc.take s a l hi hs) h

theorem writeReg_closed {c : Cfg} {F : Word → Prop} {Q : Seq → Prop} {R : Request → Prop} {P D : State → Prop}
    {reg : Reg} (hc : Closed c reg.address F Q R P D) {v : Word} (hq : Q (.tWrite (.register reg v))) (hF : F v)
    (hr : R (writeRequest c reg.address reg.addressWidth (toDev (effOrder c) v reg.width))) {s t : State} (hs : P s)
    (h : writeReg reg v s = .next t) : D t := by
  simp only [writeReg, hc.cfg s hs] at h
  refine awaitWrite_closed hc hq ?_ (hc.request s _ hr hs) h
  intro reg' v' e
  cases e
  exact ⟨rfl, hF⟩

/-- What is known of the values a command goes on with after its read. -/
def Goes (c : Cfg) (reg : Reg) (k : AfterRead) (F : Word → Prop) (Q : Seq → Prop) (R : Request → Prop) : Prop :=
  ∀ m mv, k = .merge m mv → ∀ v, F v →
    F (applyShifted reg.width m v mv) ∧ Q (.tWrite (.register reg (applyShifted reg.width m v mv))) ∧
      R (writeRequest c reg.address reg.addressWidth
        (toDev (effOrder c) (applyShifted reg.width m v mv) reg.width))

theorem afterRead_closed {c : Cfg} {F : Word → Prop} {Q : Seq → Prop} {R : Request → Prop} {P D : State → Prop}
    {reg : Reg} (hc : Closed c reg.address F Q R P D) {k : AfterRead} (hk : Goes c reg k F Q R) {v : Word} (hF : F v)
    {s t : State} (hs : P s) (h : afterRead reg k v s = .next t) : D t := by
  cases k with
  | whole => cases h; exact hc.respond _ _ hs
  | fields ms => cases h; exact hc.respond _ _ hs
  | merge m mv =>
    obtain ⟨h1, h2, h3⟩ := hk m mv rfl v hF
    exact writeReg_closed hc h2 h1 h3 hs h

theorem onReadAnswer_closed {c : Cfg} {F : Word → Prop} {Q : Seq → Prop} {R : Request → Prop} {P D : State → Prop}
    {reg : Reg} (hc : Closed c reg.address F Q R P D) {k : AfterRead} (hk : Goes c reg k F Q R) {a : Answer}
    (hread : F (toLocal (effOrder c) (a.bytes reg.width.bytes) reg.width)) {s t : State} (hs : P s)
    (h : onReadAnswer reg k a s = .next t) : D t := by
  by_cases hneg : a.signed s.cfg < 0
  · rw [onReadAnswer_failed hneg] at h
    cases h
    exact hc.respond _ _ hs
  · rw [onReadAnswer_ok (not_lt.1 hneg)] at h
    rw [← hc.cfg s hs] at hread
    exact afterRead_closed hc hk hread (hc.cache _ _ hread hs) h

theorem awaitRead_closed {c : Cfg} {F : Word → Prop} {Q : Seq → Prop} {R : Request → Prop} {P D : State → Prop}
    {reg : Reg} (hc : Closed c reg.address F Q R P D) {k : AfterRead} (hk : Goes c reg k F Q R)
    (hq : Q (.tRead reg k))
    (hread : ∀ a : Answer, F (toLocal (effOrder c) (a.bytes reg.width.bytes) reg.width)) {s t : State} (hs : P s)
    (h : awaitRead reg k s = .next t) : D t := by
  rcases awaitAnswer_next h with ⟨hi, rfl⟩ | ⟨a, l, hi, h⟩
  · exact hc.rest s _ hi hq hs
  · exact onReadAnswer_closed hc hk (hread a) (hc.take s a l hi hs) h

theorem readReg_closed {c : Cfg} {F : Word → Prop} {Q : Seq → Prop} {R : Request → Prop} {P D : State → Prop}
    {reg : Reg} (hc : Closed c reg.address F Q R P D) {k : AfterRead} (hk : Goes c reg k F Q R)
    (hq : Q (.tRead reg k)) (hr : R (readRequest c reg))
    (hread : ∀ a : Answer, F (toLocal (effOrder c) (a.bytes reg.width.bytes) reg.width)) {s t : State}
    (hslot : ∀ v, s.hit reg.address = true → slotRead s (indexOf s.cfg reg.address) = some v → F v) (hs : P s)
    (h : readReg reg k s = .next t) : D t := by
  rcases readReg_next h with ⟨v, hh, hv, h⟩ | ⟨-, h⟩
  · exact afterRead_closed hc hk (hslot v hh hv) hs h
  · rw [hc.cfg s hs] at h
    exact awaitRead_closed hc hk hq hread (hc.request s _ hr hs) h

/-- What the elementary moves keep (`Closed`), every command keeps: from `P` it leads to `D`. -/
theorem exec_closed {c : Cfg} {i : Instr} {F : Word → Prop} {Q : Seq → Prop} {R : Request → Prop} {P D : State → Prop}
    (hc : Closed c i.address F Q R P D)
    (hreq : ∀ reg, i.address = reg.address → i.addressWidth = reg.addressWidth → i.width = some reg.width →
      regUsable c reg = true →
        R (readRequest c reg) ∧
        (∀ v, R (writeRequest c reg.address reg.addressWidth (toDev (effOrder c) v reg.width))) ∧
        (∀ a : Answer, F (toLocal (effOrder c) (a.bytes reg.width.bytes) reg.width)) ∧
        (∀ v, valueFits v reg.width = true → F v ∧ Q (.tWrite (.register reg v))) ∧
        (∀ k, k.usable reg.width = true → Q (.tRead reg k)) ∧
        (∀ m mv v, m.valid reg.width = true → valueFits mv reg.width = true → F v →
          F (applyShifted reg.width m v mv) ∧ Q (.tWrite (.register reg (applyShifted reg.width m v mv)))))
    (hcmd : i.width = none → Q (.tWrite .command) ∧ R (writeRequest c i.address i.addressWidth []))
    {s t : State}
    (hslot : ∀ w, i.width = some w → ∀ v, s.hit i.address = true →
      slotRead s (indexOf s.cfg i.address) = some v → F v)
    (hs : P s) (h : exec i s = .next t) : D t := by
  have hcfg := hc.cfg s hs
  cases i with
  | rdreg reg =>
    obtain ⟨hwf, h⟩ := whenValid_next h
    rw [hcfg] at hwf
    obtain ⟨h1, -, h3, -, h5, -⟩ := hreq reg rfl rfl rfl (wf_usable hwf rfl rfl rfl)
    exact readReg_closed hc (fun m mv e => by cases e) (h5 _ rfl) h1 h3 (hslot _ rfl) hs h
  | wrreg reg v =>
    obtain ⟨hwf, h⟩ := whenValid_next h
    rw [hcfg] at hwf
    obtain ⟨-, h2, -, h4, -, -⟩ := hreq reg rfl rfl rfl (wf_usable hwf rfl rfl rfl)
    obtain ⟨h6, h7⟩ := h4 v (wf_parts hwf).2.2.2.1
    exact writeReg_closed hc h7 h6 (h2 v) hs h
  | wrcmd a aw =>
    obtain ⟨-, h⟩ := whenValid_next h
    rw [hcfg] at h
    obtain ⟨h1, h2⟩ := hcmd rfl
    exact awaitWrite_closed hc h1 (fun reg v e => by cases e) (hc.request s _ h2 hs) h
  | rdmsk reg ms =>
    obtain ⟨hwf, h⟩ := whenValid_next h
    rw [hcfg] at hwf
    obtain ⟨h1, -, h3, -, h5, -⟩ := hreq reg rfl rfl rfl (wf_usable hwf rfl rfl rfl)
    exact readReg_closed hc (fun m mv e => by cases e) (h5 _ rfl) h1 h3 (hslot _ rfl) hs h
  | wrmsk reg es =>
    obtain ⟨hwf, h⟩ := whenValid_next h
    rw [hcfg] at hwf
    obtain ⟨h1, h2, h3, h4, h5, h6⟩ := hreq reg rfl rfl rfl (wf_usable hwf rfl rfl rfl)
    split at h
    · cases h
    · rename_i e es
      split at h
      · cases h
      · rename_i mv hmv
        obtain ⟨hm, hv, -⟩ := wrmsk_merged hwf hmv
        simp only at h
        split_ifs at h
        · obtain ⟨h7, h8⟩ := h4 mv hv
          exact writeReg_closed hc h8 h7 (h2 mv) hs h
        · refine readReg_closed hc ?_ (h5 (.merge _ mv) ?_) h1 h3 (hslot _ rfl) hs h
          · intro m mv' e v hF
            cases e
            obtain ⟨h7, h8⟩ := h6 _ _ v hm hv hF
            exact ⟨h7, h8, h2 _⟩
          · simp [AfterRead.usable, hm, hv]
  | ismemo a aw w =>
    obtain ⟨-, h⟩ := whenValid_next h
    cases h
    exact hc.respond _ _ hs

/-! ### Commands on the answers they get -/

/-- `cache` as the slots it leaves (R115, R116). -/
theorem cache_slotsHolding (a v : Word) (s : State) : cache a v s = { s with memo := slotsHolding s a v } := by
  have h1 := cache_memo a v s
  have h2 := cache_cfg a v s
  have h3 := cache_seq a v s
  have h4 := cache_inputs a v s
  have h5 := cache_out a v s
  cases hc : cache a v s
  simp only [hc] at *
  subst h2 h3 h4 h5
  simp [h1, slotsHolding, isCacheable]

/-- `WriteReg` with its answer at hand (R126). -/
theorem writeReg_answer {reg : Reg} {v : Word} {a : Answer} {rest : List Input} {s : State}
    (hi : s.inputs = .answer a :: rest) :
    (a.succeeds s → writeReg reg v s = .next { s with
      memo := slotsHolding s reg.address v, seq := .idle, inputs := rest,
      out := s.out ++ [writeOf s reg v, okOf []] }) ∧
    (¬a.succeeds s → writeReg reg v s = .next { s with
      seq := .idle, inputs := rest, out := s.out ++ [writeOf s reg v, failureOf s a] }) := by
  simp only [writeReg, awaitWrite]
  rw [awaitAnswer_answer (rest := rest) (a := a) (by exact hi), onWriteAnswer_eq]
  simp only [Answer.succeeds]
  constructor
  · intro h
    simp only [emit_cfg, not_lt.2 h, if_false, cache_slotsHolding]
    simp [returnOk, respond, emit, writeOf, writeRequest, okOf, slotsHolding]
  · intro h
    simp only [emit_cfg, not_le.1 h, if_true]
    simp [failTransport, respond, emit, writeOf, writeRequest, failureOf]

/-- `ReadReg` of a register without a populated slot, its answer at hand and a success (R125). -/
theorem readReg_answer_ok {reg : Reg} {k : AfterRead} {a : Answer} {rest : List Input} {s : State}
    (hh : s.hit reg.address = false) (hi : s.inputs = .answer a :: rest) (h : a.succeeds s) :
    readReg reg k s = afterRead reg k (valueRead s reg a)
      { s with
        memo := slotsHolding s reg.address (valueRead s reg a), inputs := rest,
        out := s.out ++ [readOf s reg] } := by
  rw [readReg_miss hh, awaitRead, awaitAnswer_answer (rest := rest) (a := a) (by exact hi),
    onReadAnswer_ok (by exact h), cache_slotsHolding]
  rfl

/-- `ReadReg` of a register without a populated slot, its answer at hand and a failure (R125, R161). -/
theorem readReg_answer_fail {reg : Reg} {k : AfterRead} {a : Answer} {rest : List Input} {s : State}
    (hh : s.hit reg.address = false) (hi : s.inputs = .answer a :: rest) (h : ¬a.succeeds s) :
    readReg reg k s = .next { s with
      seq := .idle, inputs := rest, out := s.out ++ [readOf s reg, failureOf s a] } := by
  rw [readReg_miss hh, awaitRead, awaitAnswer_answer (rest := rest) (a := a) (by exact hi),
    onReadAnswer_failed (by exact not_le.1 h)]
  simp [failTransport, respond, emit, readOf, readRequest, failureOf]

end Sys2Proof.Machine
end

