-- ==== Sys2Proof/Laws/PerInstr.lean ====
section
/-! SUPPORT. Statements made of every command, one lemma per constructor of `Instr`: PacketLength, that the number of
operand words of an encoded command is the one its control word calls for (R53, R55 of 30_encoding.md). -/

namespace Sys2Proof

/-- The encoded command's packet has exactly the words that its own `OPC` and `NM` fields call for, if its number of
masks fits the field `NM` (R53, R55). -/
def Laws.PacketLength.Statement (i : Instr) : Prop :=
  (∀ cfg : Cfg, cfg.maxMasks ≤ 15 → i.countLegal cfg = true →
    ∃ op, Opcode.ofField (encode i).opc = some op ∧ (encode i).ops.length = op.operandWords (encode i).nm)

theorem Laws.PacketLength.rdreg (reg : Reg) : Laws.PacketLength.Statement (.rdreg reg) := fun _ _ _ =>
  ⟨.rdreg, by simp only [encode, opc_controlWord]; rfl, rfl⟩

theorem Laws.PacketLength.wrreg (reg : Reg) (v : Word) : Laws.PacketLength.Statement (.wrreg reg v) := fun _ _ _ =>
  ⟨.wrreg, by simp only [encode, opc_controlWord]; rfl, rfl⟩

theorem Laws.PacketLength.wrcmd (address : Word) (aw : Width) :
    Laws.PacketLength.Statement (.wrcmd address aw) := fun _ _ _ =>
  ⟨.wrcmd, by simp only [encode, opc_controlWord]; rfl, rfl⟩

theorem Laws.PacketLength.rdmsk (reg : Reg) (masks : List Mask) :
    Laws.PacketLength.Statement (.rdmsk reg masks) := fun cfg h15 h => by
  refine ⟨.rdmsk, by simp only [encode, opc_controlWord]; rfl, ?_⟩
  simp only [Instr.countLegal, Bool.and_eq_true, decide_eq_true_eq] at h
  simp only [encode, nm_controlWord, Opcode.operandWords, List.length_cons, List.length_map, BitVec.toNat_ofNat]
  omega

theorem Laws.PacketLength.wrmsk (reg : Reg) (entries : List Entry) :
    Laws.PacketLength.Statement (.wrmsk reg entries) := fun cfg h15 h => by
  refine ⟨.wrmsk, by simp only [encode, opc_controlWord]; rfl, ?_⟩
  simp only [Instr.countLegal, Bool.and_eq_true, decide_eq_true_eq] at h
  simp only [encode, nm_controlWord, Opcode.operandWords, List.length_cons, wordsOfEntries_length, BitVec.toNat_ofNat]
  omega

theorem Laws.PacketLength.ismemo (address : Word) (aw : Width) (width : Option Width) :
    Laws.PacketLength.Statement (.ismemo address aw width) := fun _ _ _ =>
  ⟨.ismemo, by simp only [encode, opc_controlWord]; rfl, rfl⟩

end Sys2Proof
end

