-- ==== Sys2Proof/Laws/Step.lean ====
section
/-! SUPPORT. What a step can do, said once: the inversion of `step` and of running a packet, and the invariant in its
three parts. -/

namespace Sys2Proof.Machine

open Sys2Proof

/-- The invariant's three parts. -/
theorem inv_iff (s : State) :
    s.Inv ↔ validCfg s.cfg = true ∧ slotsAgree s.cfg.memo s.memo = true ∧ s.seq.usable s.cfg = true := by
  simp [State.Inv, and_assoc]

/-- Running a packet runs its command or rejects it (R59). -/
theorem runPacket_next {p : Packet} {s t : State} (h : runPacket p s = .next t) :
    (∃ i, decode s.cfg p = .accept i ∧ exec i s = .next t) ∨
      (∃ e, decode s.cfg p = .reject e ∧ t = rejectDecl e s) := by
  simp only [runPacket] at h
  split at h
  · exact .inl ⟨_, ‹_›, h⟩
  · cases h; exact .inr ⟨_, ‹_›, rfl⟩

theorem step_valid {s : State} (h : validCfg s.cfg = true) : step s = phaseStep s := by
  simp [step, h]

theorem step_next_valid {s t : State} (h : step s = .next t) : validCfg s.cfg = true ∧ phaseStep s = .next t := by
  simp only [step] at h
  split at h
  · exact ⟨‹_›, h⟩
  · cases h

/-- What a step from IDLE can do: nothing, run the packet presented, or reset (R19, R180). -/
theorem idleStep_next {s t : State} (h : idleStep s = .next t) :
    (s.inputs = [] ∧ t = s) ∨
      (∃ p rest, s.inputs = .present p :: rest ∧ runPacket p (latch p rest s) = .next t) ∨
      (∃ rest, s.inputs = .reset :: rest ∧ t = resetBlock { s with inputs := rest }) := by
  simp only [idleStep] at h
  split at h
  · rename_i e; cases h; exact .inl ⟨e, rfl⟩
  · rename_i p rest e; exact .inr (.inl ⟨p, rest, e, h⟩)
  · rename_i rest e; cases h; exact .inr (.inr ⟨rest, e, rfl⟩)
  · cases h

/-- What a step can do, phase by phase (R19). -/
theorem phaseStep_next {s t : State} (h : phaseStep s = .next t) :
    (s.seq = .idle ∧ idleStep s = .next t) ∨
      (∃ p, s.seq = .decode p ∧ runPacket p s = .next t) ∨
      (∃ reg k a rest, s.seq = .tRead reg k ∧ s.inputs = .answer a :: rest ∧
        onReadAnswer reg k a { s with inputs := rest } = .next t) ∨
      (∃ job a rest, s.seq = .tWrite job ∧ s.inputs = .answer a :: rest ∧
        onWriteAnswer job a { s with inputs := rest } = .next t) ∨
      (∃ r, s.seq = .respond r ∧ t = respond r s) := by
  simp only [phaseStep] at h
  split at h
  · exact .inl ⟨‹_›, h⟩
  · exact .inr (.inl ⟨_, ‹_›, h⟩)
  · rename_i reg k hs
    split_ifs at h with hi
    rcases awaitAnswer_next h with ⟨hi', -⟩ | ⟨a, l, hi', h⟩
    · exact absurd hi' hi
    · exact .inr (.inr (.inl ⟨reg, k, a, l, hs, hi', h⟩))
  · rename_i job hs
    split_ifs at h with hi
    rcases awaitAnswer_next h with ⟨hi', -⟩ | ⟨a, l, hi', h⟩
    · exact absurd hi' hi
    · exact .inr (.inr (.inr (.inl ⟨job, a, l, hs, hi', h⟩)))
  · cases h; exact .inr (.inr (.inr (.inr ⟨_, ‹_›, rfl⟩)))

/-- What a command may rest in, with nothing said of its operands. -/
def waitingPhase (q : Seq) : Prop := q.phase = .tRead ∨ q.phase = .tWrite

/-- What the elementary moves keep, every command keeps (`exec_closed` with nothing known of the operands). -/
theorem exec_moves {i : Instr} {s t : State} {P D : State → Prop}
    (hc : Closed s.cfg i.address (fun _ => True) waitingPhase (fun _ => True) P D) (hs : P s)
    (h : exec i s = .next t) : D t := by
  refine exec_closed hc ?_ (fun _ => ⟨.inr rfl, trivial⟩) (fun _ _ _ _ _ => trivial) hs h
  intro reg _ _ _ _
  exact ⟨trivial, fun _ => trivial, fun _ => trivial, fun _ _ => ⟨trivial, .inr rfl⟩, fun _ _ => .inl rfl,
    fun _ _ _ _ _ _ => ⟨trivial, .inr rfl⟩⟩

/-- What the elementary moves keep, every step keeps: `P` holds where the command in progress, or the one just
presented, starts, and `D` after the step. -/
theorem step_closed {s t : State} {P D : State → Prop}
    (hc : ∀ a, Closed s.cfg a (fun _ => True) waitingPhase (fun _ => True) P D)
    (hwait : s.seq = .idle → s.inputs = [] → D s)
    (hpresent : ∀ p rest, s.seq = .idle → s.inputs = .present p :: rest → P (latch p rest s))
    (hreset : ∀ rest, s.seq = .idle → s.inputs = .reset :: rest → D (resetBlock { s with inputs := rest }))
    (hbusy : s.seq ≠ .idle → P s) (h : step s = .next t) : D t := by
  have run : ∀ p u, u.cfg = s.cfg → P u → runPacket p u = .next t → D t := by
    intro p u hu hP h
    rcases runPacket_next h with ⟨i, -, h⟩ | ⟨e, -, rfl⟩
    · exact exec_moves (by rw [hu]; exact hc _) hP h
    · exact (hc 0).respond _ _ hP
  rcases phaseStep_next (step_next_valid h).2 with ⟨hs, h⟩ | ⟨p, hs, h⟩ | ⟨reg, k, a, rest, hs, hi, h⟩ |
    ⟨job, a, rest, hs, hi, h⟩ | ⟨r, hs, rfl⟩
  · rcases idleStep_next h with ⟨hi, rfl⟩ | ⟨p, rest, hi, h⟩ | ⟨rest, hi, rfl⟩
    · exact hwait hs hi
    · exact run p (latch p rest s) rfl (hpresent p rest hs hi) h
    · exact hreset _ hs hi
  · exact run p s rfl (hbusy (by simp [hs])) h
  · exact onReadAnswer_closed (hc reg.address) (fun m mv e v hv => ⟨trivial, .inr rfl, trivial⟩) trivial
      ((hc reg.address).take s a rest hi (hbusy (by simp [hs]))) h
  · have hP := (hc 0).take s a rest hi (hbusy (by simp [hs]))
    cases job with
    | command => exact onWriteAnswer_closed (hc 0) (fun _ _ e => by cases e) hP h
    | register reg v =>
      exact onWriteAnswer_closed (hc reg.address) (fun reg' v' e => by cases e; exact ⟨rfl, trivial⟩) hP h
  · exact (hc 0).respond _ _ (hbusy (by simp [hs]))

end Sys2Proof.Machine
end

