-- ==== Sys2Proof/Machine/Text.lean ====
section
/-! DEFINITION. The textual syntax (R64, R66 of 30_encoding.md, D26): a command line as the packet it stands for, and
a CONFIG line as a configuration to be checked. A line may name a packet that decode rejects; a number that does not
fit its packet field stands for no packet (log entry 26). -/

namespace Sys2Proof.Machine

open Sys2Proof

/-- A token of a line. -/
inductive Token where
  | name (cs : List Char)
  | number (n : Nat)
  | mark (c : Char)
deriving DecidableEq, Repr

/-- The value of a digit, `0-9`, `a-f`, `A-F`. -/
def digitValue (c : Char) : Option Nat :=
  if '0' ≤ c ∧ c ≤ '9' then some (c.toNat - 48)
  else if 'a' ≤ c ∧ c ≤ 'f' then some (c.toNat - 87)
  else if 'A' ≤ c ∧ c ≤ 'F' then some (c.toNat - 55)
  else none

/-- The number of some digits in a base, after a prefix already read. -/
def digitsValue (base : Nat) : Nat → List Char → Option Nat
  | acc, [] => some acc
  | acc, c :: cs =>
    match digitValue c with
    | some d => if d < base then digitsValue base (acc * base + d) cs else none
    | none => none

/-- A hexadecimal (`0x`) or decimal number. -/
def numberOf (cs : List Char) : Option Nat :=
  match cs with
  | [] => none
  | ['0', 'x'] => none
  | '0' :: 'x' :: ds => digitsValue 16 0 ds
  | ds => digitsValue 10 0 ds

/-- A run of letters and digits as a token: a number where it starts with a digit. -/
def wordToken (cs : List Char) : Option Token :=
  match cs with
  | [] => none
  | c :: _ => if c.isDigit then (numberOf cs).map Token.number else some (.name cs)

/-- The tokens of a line; `run` holds the letters and digits read so far, last first. -/
def tokensFrom (run : List Char) : List Char → Option (List Token)
  | [] =>
    match run with
    | [] => some []
    | _ :: _ => (wordToken run.reverse).map fun t => [t]
  | c :: cs =>
    if c.isAlphanum then tokensFrom (c :: run) cs
    else
      match tokensFrom [] cs with
      | none => none
      | some ts =>
        let rest := if c.isWhitespace then ts else .mark c :: ts
        match run with
        | [] => some rest
        | _ :: _ => (wordToken run.reverse).map fun t => t :: rest

/-- The tokens of a line. -/
def tokens (line : List Char) : Option (List Token) := tokensFrom [] line

/-- A number as a 4-bit field, if it fits. -/
def field4 (n : Nat) : Option (BitVec 4) := if n < 2 ^ 4 then some (BitVec.ofNat 4 n) else none

/-- A number as a 64-bit word, if it fits. -/
def word64 (n : Nat) : Option Word := if n < 2 ^ 64 then some (BitVec.ofNat 64 n) else none

/-- `[highBit:lowBit]` as a mask word, if both fit their fields. -/
def maskWordOf (hi lo : Nat) : Option Word :=
  if hi < 2 ^ 6 ∧ lo < 2 ^ 6 then some (Mask.word ⟨hi, lo⟩) else none

/-- `{ "," mask }` to the end of the line, as mask words. -/
def maskList : List Token → Option (List Word)
  | [] => some []
  | .mark ',' :: .mark '[' :: .number hi :: .mark ':' :: .number lo :: .mark ']' :: rest =>
    match maskWordOf hi lo, maskList rest with
    | some mw, some ws => some (mw :: ws)
    | _, _ => none
  | _ => none

/-- `{ "," mask "=" value }` to the end of the line, as mask and value words. -/
def entryList : List Token → Option (List Word)
  | [] => some []
  | .mark ',' :: .mark '[' :: .number hi :: .mark ':' :: .number lo :: .mark ']' :: .mark '=' :: .number v :: rest =>
    match maskWordOf hi lo, word64 v, entryList rest with
    | some mw, some fv, some ws => some (mw :: fv :: ws)
    | _, _, _ => none
  | _ => none

/-- The packet of an opcode, a register and the operand words after `ADDR`, with `n` masks. -/
def packetOf (op : Opcode) (address aw w n : Nat) (operands : List Word) : Option Packet :=
  match word64 address, field4 aw, field4 w, field4 n with
  | some a, some awf, some wf, some nf => some ⟨controlWord op.field wf awf nf, a :: operands⟩
  | _, _, _, _ => none

/-- What follows the register in a command of each kind. -/
def commandTail (op : Opcode) (address aw w : Nat) (rest : List Token) : Option Packet :=
  match op with
  | .rdreg => if rest = [] then packetOf op address aw w 0 [] else none
  | .wrcmd => if rest = [] then packetOf op address aw w 0 [] else none
  | .ismemo => if rest = [] then packetOf op address aw w 0 [] else none
  | .wrreg =>
    match rest with
    | [.mark ',', .number v] =>
      match word64 v with
      | some val => packetOf op address aw w 0 [val]
      | none => none
    | _ => none
  | .rdmsk =>
    match maskList rest with
    | some (mw :: ws) => packetOf op address aw w (ws.length + 1) (mw :: ws)
    | _ => none
  | .wrmsk =>
    match entryList rest with
    | some (mw :: ws) => packetOf op address aw w ((ws.length + 1) / 2) (mw :: ws)
    | _ => none

/-- The mnemonic of a command line. -/
def opcodeNamed (cs : List Char) : Option Opcode :=
  if cs = "RDREG".toList then some .rdreg
  else if cs = "WRREG".toList then some .wrreg
  else if cs = "WRCMD".toList then some .wrcmd
  else if cs = "RDMSK".toList then some .rdmsk
  else if cs = "WRMSK".toList then some .wrmsk
  else if cs = "ISMEMO".toList then some .ismemo
  else none

/-- The packet a command line stands for (R64). -/
def packetOfLine (line : List Char) : Option Packet :=
  match tokens line with
  | some (.name cs :: .name ['R'] :: .mark '(' :: .number address :: .mark ',' :: .number aw :: .mark ',' ::
      .number w :: .mark ')' :: rest) =>
    match opcodeNamed cs with
    | some op => commandTail op address aw w rest
    | none => none
  | _ => none

/-- The opening brace, code 123. -/
def braceOpen : Char := Char.ofNat 123
/-- The closing brace, code 125. -/
def braceClose : Char := Char.ofNat 125

/-- `R(..), R(..) }` after at least one entry has been asked for, to the end of the line. -/
def regList : List Token → Option (List RawReg)
  | [.name ['R'], .mark '(', .number a, .mark ',', .number aw, .mark ',', .number w, .mark ')', .mark c] =>
    if c = braceClose then some [⟨a, aw, w⟩] else none
  | .name ['R'] :: .mark '(' :: .number a :: .mark ',' :: .number aw :: .mark ',' :: .number w :: .mark ')' ::
      .mark ',' :: rest =>
    match regList rest with
    | some rs => some (⟨a, aw, w⟩ :: rs)
    | none => none
  | _ => none

/-- The `memo` list after its opening brace. -/
def memoList (ts : List Token) : Option (List RawReg) :=
  if ts = [.mark braceClose] then some [] else regList ts

/-- `little` or `big`. -/
def endianNamed (cs : List Char) : Option Endian :=
  if cs = "little".toList then some .little else if cs = "big".toList then some .big else none

/-- The code of `native`, `little` or `big` (R11 of 10_state.md). -/
def orderCodeNamed (cs : List Char) : Option (BitVec 2) :=
  if cs = "native".toList then some 0
  else if cs = "little".toList then some 1
  else if cs = "big".toList then some 2
  else none

/-- The tokens of `key=`. -/
def isKey (cs : List Char) (key : String) : Bool := decide (cs = key.toList)

/-- The configuration a CONFIG line declares (R66); the parameters it does not name are given beside it. -/
def configOfLine (devAddrBits maxMasks statusBits : Nat) (line : List Char) : Option RawCfg :=
  match tokens line with
  | some (.name k0 :: .name k1 :: .mark '=' :: .name order :: .name k2 :: .mark '=' :: .name host :: .name k3 ::
      .mark '=' :: .number dev :: .name k4 :: .mark '=' :: .mark c :: rest) =>
    if isKey k0 "CONFIG" && isKey k1 "order" && isKey k2 "host" && isKey k3 "dev" && isKey k4 "memo"
        && decide (c = braceOpen) then
      match orderCodeNamed order, endianNamed host, memoList rest with
      | some oc, some h, some memo => some ⟨h, oc, devAddrBits, dev, maxMasks, statusBits, memo⟩
      | _, _, _ => none
    else none
  | _ => none

end Sys2Proof.Machine
end

