-- ==== Sys2Proof/Tests/Slice0.lean ====
section
/-! SUPPORT. The model's own tests. Expected values stand in 95_test_vectors.md (their id is given) or follow by hand
from the rule named. First the well-formedness smoke, then decoding, the pure functions, one step of each command, the
sequencer, the text forms, and last a witness for each statement with hypotheses. -/

namespace Sys2Proof.Tests

open Sys2Proof Sys2Proof.Machine

/-- A configuration with the parameters of 95_test_vectors.md. -/
def testCfg (order : DeviceOrder) (memo : List Reg) : Cfg := ⟨.little, order, 8, 0x48, 15, 32, memo⟩

/-- `CONFIG order=big host=little dev=0x48 memo=( R(0x10,1,3) )`, program P2. -/
def cfgP2 : Cfg := testCfg .big [⟨0x10, .w1, .w3⟩]

/-- A successful answer with these bytes, the rest 0xEE. -/
def good (d0 d1 d2 d3 : Byte) : Answer := ⟨0, #v[d0, d1, d2, d3, 0xEE, 0xEE, 0xEE, 0xEE]⟩

/-- A failing answer. -/
def failing (status : Int) : Answer := ⟨status, #v[0, 0, 0, 0, 0, 0, 0, 0]⟩

/-- An idle instance of a configuration with given slots and inputs. -/
def idleWith (cfg : Cfg) (slots : List Slot) (inputs : List Input) : State := ⟨cfg, slots, .idle, inputs, []⟩

/-- The outcome is a next state of which `p` holds. -/
def nextIs (o : StepResult) (p : State → Bool) : Bool :=
  match o with
  | .next t => p t
  | .fault _ => false
  | .refused _ => false

/-- The outcome is this refusal. -/
def refusedWith (o : StepResult) (r : Refusal) : Bool :=
  match o with
  | .next _ => false
  | .fault _ => false
  | .refused r' => decide (r' = r)

/-- The outcome is this fault. -/
def faultsWith (o : StepResult) (f : Fault) : Bool :=
  match o with
  | .next _ => false
  | .fault f' => decide (f' = f)
  | .refused _ => false

/-- After the step the block is idle, has sent `out`, and its slots are `slots`. -/
def endsWith (o : StepResult) (out : List Output) (slots : List Slot) : Bool :=
  nextIs o fun t => decide (t.seq = .idle) && decide (t.out = out) && decide (t.memo = slots)

theorem nextIs_exists {o : StepResult} {p : State → Bool} (h : nextIs o p = true) :
    ∃ t, o = .next t ∧ p t = true := by
  cases o with
  | next t => exact ⟨t, rfl, h⟩
  | fault f => cases h
  | refused r => cases h

/-- A transport read of device 0x48. -/
def rd (addr : List Byte) (n : Nat) : Output := .request (.read 0x48 addr addr.length n)
/-- A transport write of device 0x48. -/
def wr (addr data : List Byte) : Output := .request (.write 0x48 addr addr.length data.length data)
/-- A response packet. -/
def rsp (rw : BitVec 32) (st : Word) (values : List Word) : Output := .response ⟨rw, st, values⟩

/-! ### Well-formedness: an ill-formed term for each check, which the check refuses -/

/-- Check 5: no mask. -/
theorem test_wf_no_mask : (Instr.rdmsk ⟨0x40, .w1, .w2⟩ []).countLegal cfgP2 = false := by decide
/-- Check 5: 16 masks with `MAX_MASKS = 15`. -/
theorem test_wf_too_many_masks :
    (Instr.rdmsk ⟨0x40, .w1, .w2⟩ (List.replicate 16 ⟨0, 0⟩)).countLegal cfgP2 = false := by decide
/-- Check 7: 0x100 does not fit 1 byte. -/
theorem test_wf_address : (Instr.rdreg ⟨0x100, .w1, .w2⟩).addressLegal = false := by decide
/-- Check 8: bit 24 of a 3-byte register (P5 step 9). -/
theorem test_wf_mask_high : (Instr.rdmsk ⟨0x40, .w1, .w3⟩ [⟨24, 16⟩]).masksLegal = false := by decide
/-- Check 8: `lo > hi`. -/
theorem test_wf_mask_order : (Instr.wrmsk ⟨0x40, .w1, .w1⟩ [⟨⟨3, 4⟩, 0⟩]).masksLegal = false := by decide
/-- Check 9: P5 step 8. -/
theorem test_wf_value : (Instr.wrreg ⟨0x40, .w1, .w3⟩ 0x1000000).valuesLegal = false := by decide
/-- Check 9: P5 step 10. -/
theorem test_wf_field_value : (Instr.wrmsk ⟨0x40, .w1, .w1⟩ [⟨⟨3, 0⟩, 0x10⟩]).valuesLegal = false := by decide
/-- Check 10: the memoized address with another width. -/
theorem test_wf_shape : (Instr.rdreg ⟨0x10, .w1, .w1⟩).shapeLegal cfgP2 = false := by decide
/-- Check 10: the memoized address as a command register. -/
theorem test_wf_shape_command : (Instr.wrcmd 0x10 .w1).shapeLegal cfgP2 = false := by decide
/-- A term that fails a check gets no meaning. -/
theorem test_wf_refused :
    refusedWith (exec (.rdreg ⟨0x100, .w1, .w2⟩) (idleWith cfgP2 [Slot.unpopulated] [])) .illFormedInstr = true := by
  decide

/-! ### Decoding: words written out from R51 to R54 -/

/-- P2 step 5: `13100000 10`. -/
theorem test_decode_rdreg : decode cfgP2 ⟨0x13100000, [0x10]⟩ = .accept (.rdreg ⟨0x10, .w1, .w3⟩) := by decide
/-- P2 step 2. -/
theorem test_decode_wrreg :
    decode cfgP2 ⟨0x23100000, [0x10, 0x123456]⟩ = .accept (.wrreg ⟨0x10, .w1, .w3⟩ 0x123456) := by decide
/-- P5 step 1. -/
theorem test_decode_wrcmd : decode cfgP2 ⟨0x30200000, [0x1FE]⟩ = .accept (.wrcmd 0x1FE .w2) := by decide
/-- V43-4. -/
theorem test_decode_rdmsk :
    decode cfgP2 ⟨0x48420000, [0x01020304, 0x3F00, 0x2708]⟩ =
      .accept (.rdmsk ⟨0x01020304, .w4, .w8⟩ [⟨63, 0⟩, ⟨39, 8⟩]) := by decide
/-- V43-10. -/
theorem test_decode_wrmsk :
    decode cfgP2 ⟨0x54120000, [0, 0x0908, 3, 0x0502, 0]⟩ =
      .accept (.wrmsk ⟨0, .w1, .w4⟩ [⟨⟨9, 8⟩, 3⟩, ⟨⟨5, 2⟩, 0⟩]) := by decide
/-- V43-7: a command register. -/
theorem test_decode_ismemo : decode cfgP2 ⟨0x60100000, [0x11]⟩ = .accept (.ismemo 0x11 .w1 none) := by decide

/-- V30-1, V30-3. -/
theorem test_reject_opcode :
    decode cfgP2 ⟨0x01100000, [0]⟩ = .reject .badOpcode ∧ decode cfgP2 ⟨0, []⟩ = .reject .badOpcode := by decide
/-- V30-4. -/
theorem test_reject_reserved : decode cfgP2 ⟨0x11100001, [0]⟩ = .reject .badReserved := by decide
/-- V30-6, V30-7. -/
theorem test_reject_width :
    decode cfgP2 ⟨0x10100000, [0]⟩ = .reject .badWidth ∧ decode cfgP2 ⟨0x31100000, [0xFE]⟩ = .reject .badWidth := by
  decide
/-- V30-10. -/
theorem test_reject_address_width : decode cfgP2 ⟨0x11500000, [0]⟩ = .reject .badAddrWidth := by decide
/-- V30-11, V30-13. -/
theorem test_reject_count :
    decode cfgP2 ⟨0x11110000, [0]⟩ = .reject .badNm ∧ decode cfgP2 ⟨0x41100000, [0]⟩ = .reject .badNm := by decide
/-- V30-14, V30-15, V30-16. -/
theorem test_reject_length :
    decode cfgP2 ⟨0x11100000, []⟩ = .reject .badLength ∧ decode cfgP2 ⟨0x51110000, [0, 0x300]⟩ = .reject .badLength ∧
      decode cfgP2 ⟨0x11100000, [0, 0]⟩ = .reject .badLength := by decide
/-- Bits 7:6 of a mask word are reserved (R52). -/
theorem test_reject_mask_reserved : decode cfgP2 ⟨0x41110000, [0, 0x0740]⟩ = .reject .maskRange := by decide
/-- The four checks on operands: R60 rows 7 to 10. -/
theorem test_reject_operands :
    decode cfgP2 ⟨0x11100000, [0x100]⟩ = .reject .addrRange ∧
      decode cfgP2 ⟨0x43110000, [0x40, 0x1810]⟩ = .reject .maskRange ∧
      decode cfgP2 ⟨0x51110000, [0x40, 0x0300, 0x10]⟩ = .reject .valueRange ∧
      decode cfgP2 ⟨0x12100000, [0x10]⟩ = .reject .memoMismatch := by decide
/-- R65: the first check that fails names the rejection (reserved before width). -/
theorem test_reject_first : decode cfgP2 ⟨0x15500001, []⟩ = .reject .badReserved := by decide
/-- The bits of `WRREG R(0x40,1,2), 0xBEEF` (as V43-1), numbered as spec/opcode_table.json numbers them. -/
theorem test_table_word :
    decodeTableWord 160 (0x22100000 + 0x40 * 2 ^ 32 + 0xBEEF * 2 ^ 96) = some (.wrreg ⟨0x40, .w1, .w2⟩ 0xBEEF) := by
  decide
/-- Encoding gives the words of P2 step 4. -/
theorem test_encode_wrmsk :
    encode (.wrmsk ⟨0x10, .w1, .w3⟩ [⟨⟨23, 16⟩, 0x99⟩]) = ⟨0x53110000, [0x10, 0x1710, 0x99]⟩ := by decide

/-! ### The pure functions -/

/-- V40-7, V40-11, V40-12, V40-24. -/
theorem test_bitmask :
    bitmask ⟨23, 16⟩ = 0x00FF0000 ∧ bitmask ⟨63, 0⟩ = 0xFFFFFFFFFFFFFFFF ∧ bitmask ⟨63, 63⟩ = 0x8000000000000000 ∧
      shiftOut ⟨5, 2⟩ 0xC3 = 0 := by decide
/-- V40-32, V40-33, V40-36. -/
theorem test_apply :
    applyMask .w2 ⟨11, 4⟩ 0xABCD 0x12 = 0xA12D ∧ applyMask .w3 ⟨7, 0⟩ 0xAB123456 0 = 0xAB123400 ∧
      applyShifted .w4 ⟨9, 2⟩ 0xFFFFFFFF 0x300 = 0xFFFFFF03 := by decide
/-- V40-39, V40-41, V40-44. -/
theorem test_merge :
    mergeMasks [⟨⟨15, 12⟩, 1⟩, ⟨⟨3, 0⟩, 2⟩] = some 0x1002 ∧ mergeMasks [⟨⟨7, 4⟩, 0xA⟩, ⟨⟨5, 2⟩, 3⟩] = none ∧
      mergedMask ⟨9, 8⟩ [⟨5, 2⟩] = ⟨9, 2⟩ := by decide
/-- V41-5, V41-6, V41-12, V41-13. -/
theorem test_to_device :
    toDev .little 0x1234 .w2 = [0x34, 0x12] ∧ toDev .big 0x1234 .w2 = [0x12, 0x34] ∧
      toDev .big 0x123456 .w3 = [0x12, 0x34, 0x56] ∧ toDev .big 0xAB123456 .w3 = [0x12, 0x34, 0x56] := by decide
/-- V41-15, V41-17, V41-18. -/
theorem test_to_local :
    toLocal .big [0xDE, 0xAD, 0xBE, 0xEF] .w4 = 0xDEADBEEF ∧ toLocal .little [0xDE, 0xAD, 0xBE, 0xEF] .w4 = 0xEFBEADDE ∧
      toLocal .big [0x12, 0x34, 0x56] .w3 = 0x123456 ∧ toLocal .little [0x12, 0x34, 0x56] .w3 = 0x563412 := by decide
/-- V41-1 to V41-3. -/
theorem test_effective_order :
    effOrder (testCfg .native []) = .little ∧ effOrder { testCfg .native [] with hostOrder := .big } = .big ∧
      effOrder { testCfg .big [] with hostOrder := .little } = .big := by decide

/-! ### One step of each command -/

/-- V43-14: a read that fails leaves the slot unpopulated. -/
theorem test_rdreg_fails :
    endsWith (step (idleWith (testCfg .little [⟨0x10, .w1, .w1⟩]) [Slot.unpopulated]
      [.present ⟨0x11100000, [0x10]⟩, .answer (failing (-7))]))
      [rd [0x10] 1, rsp 0x40000000 0xFFFFFFFFFFFFFFF9 []] [Slot.unpopulated] = true := by decide
/-- P4 step 1: a read fills the slot. -/
theorem test_rdreg_fills_slot :
    endsWith (step (idleWith (testCfg .little [⟨0x30, .w1, .w2⟩]) [Slot.unpopulated]
      [.present ⟨0x12100000, [0x30]⟩, .answer (good 0x34 0x12 0 0)]))
      [rd [0x30] 2, rsp 0x04000000 0 [0x1234]] [⟨some 0x1234, true⟩] = true := by decide
/-- P2 step 2. -/
theorem test_wrreg :
    endsWith (step (idleWith cfgP2 [Slot.unpopulated]
      [.present ⟨0x23100000, [0x10, 0x123456]⟩, .answer (good 0 0 0 0)]))
      [wr [0x10] [0x12, 0x34, 0x56], rsp 0 0 []] [⟨some 0x123456, true⟩] = true := by decide
/-- P4 step 2: a write that fails leaves the slot as it was. -/
theorem test_wrreg_fails :
    endsWith (step (idleWith (testCfg .little [⟨0x30, .w1, .w2⟩]) [⟨some 0x1234, true⟩]
      [.present ⟨0x22100000, [0x30, 0xBEEF]⟩, .answer (failing (-5))]))
      [wr [0x30] [0xEF, 0xBE], rsp 0x40000000 0xFFFFFFFFFFFFFFFB []] [⟨some 0x1234, true⟩] = true := by decide
/-- V43-5 and P5 step 1. -/
theorem test_wrcmd :
    endsWith (step (idleWith (testCfg .big []) [] [.present ⟨0x30200000, [0x1FE]⟩, .answer (good 0 0 0 0)]))
      [wr [0x01, 0xFE] [], rsp 0 0 []] [] = true := by decide
/-- P2 step 3: from the slot, no request. -/
theorem test_rdmsk_from_slot :
    endsWith (step (idleWith cfgP2 [⟨some 0x123456, true⟩] [.present ⟨0x43110000, [0x10, 0x1710]⟩]))
      [rsp 0x04000000 0 [0x12]] [⟨some 0x123456, true⟩] = true := by decide
/-- P3 step 3: one read for two masks. -/
theorem test_rdmsk_two_fields :
    endsWith (step (idleWith (testCfg .big []) []
      [.present ⟨0x42120000, [0x20, 0x0F08, 0x0700]⟩, .answer (good 0x21 0x12 0 0)]))
      [rd [0x20] 2, rsp 0x08000000 0 [0x21, 0x12]] [] = true := by decide
/-- V43-10: the gap bits 7:6 are written 0. -/
theorem test_wrmsk_gap :
    endsWith (step (idleWith (testCfg .little []) []
      [.present ⟨0x54120000, [0, 0x0908, 3, 0x0502, 0]⟩, .answer (good 0xFF 0xFF 0xFF 0xFF), .answer (good 0 0 0 0)]))
      [rd [0] 4, wr [0] [0x03, 0xFF, 0xFF, 0xFF], rsp 0 0 []] [] = true := by decide
/-- V43-15: read succeeds, write fails; the slot keeps the value read. -/
theorem test_wrmsk_write_fails :
    endsWith (step (idleWith (testCfg .little [⟨0x10, .w1, .w1⟩]) [Slot.unpopulated]
      [.present ⟨0x51110000, [0x10, 0x0300, 0xF]⟩, .answer (good 0x5A 0 0 0), .answer (failing (-1))]))
      [rd [0x10] 1, wr [0x10] [0x5F], rsp 0x40000000 0xFFFFFFFFFFFFFFFF []] [⟨some 0x5A, true⟩] = true := by decide
/-- V43-7. -/
theorem test_ismemo :
    endsWith (step (idleWith cfgP2 [Slot.unpopulated] [.present ⟨0x63100000, [0x10]⟩]))
      [rsp 0x04000000 0 [1]] [Slot.unpopulated] = true ∧
    endsWith (step (idleWith cfgP2 [Slot.unpopulated] [.present ⟨0x61100000, [0x11]⟩]))
      [rsp 0x04000000 0 [0]] [Slot.unpopulated] = true := by decide
/-- V43-16: overlapping masks are refused. -/
theorem test_wrmsk_overlap :
    refusedWith (step (idleWith (testCfg .little []) []
      [.present ⟨0x51120000, [0, 0x0704, 0xA, 0x0502, 3]⟩])) .overlappingMasks = true := by decide

/-! ### The sequencer, reset, making an instance -/

/-- V60-8: no answer. -/
theorem test_silent_transport :
    nextIs (step (idleWith cfgP2 [Slot.unpopulated] [.present ⟨0x13100000, [0x10]⟩])) (fun t =>
      decide (t.seq.phase = .tRead) && decide (t.out = [rd [0x10] 3]) && faultsWith (step t) .transportSilent) = true := by
  decide
/-- V60-7: a positive status is a success and is not forwarded. -/
theorem test_positive_status :
    endsWith (step (idleWith (testCfg .little []) []
      [.present ⟨0x21100000, [5, 9]⟩, .answer ⟨5, #v[0, 0, 0, 0, 0, 0, 0, 0]⟩])) [wr [5] [9], rsp 0 0 []] [] = true := by
  decide
/-- V60-6. -/
theorem test_most_negative_status :
    endsWith (step (idleWith (testCfg .little []) [] [.present ⟨0x21100000, [5, 9]⟩, .answer (failing (-2147483648))]))
      [wr [5] [9], rsp 0x40000000 0xFFFFFFFF80000000 []] [] = true := by decide
/-- P5 step 8 and R67: a rejected packet. -/
theorem test_rejected_packet :
    endsWith (step (idleWith cfgP2 [⟨some 1, true⟩] [.present ⟨0x23100000, [0x40, 0x1000000]⟩]))
      [rsp 0x80000000 9 []] [⟨some 1, true⟩] = true := by decide
/-- V42-9. -/
theorem test_reset :
    endsWith (step (idleWith cfgP2 [⟨some 1, true⟩] [.reset])) [] [Slot.unpopulated] = true := by decide
/-- R19, R181, D28. -/
theorem test_refused_events :
    refusedWith (step (idleWith cfgP2 [Slot.unpopulated] [.present ⟨0x13100000, [0x10]⟩, .reset]))
      .resetDuringCommand = true ∧
    refusedWith (step (idleWith cfgP2 [Slot.unpopulated] [.present ⟨0x13100000, [0x10]⟩, .present ⟨0, []⟩]))
      .commandWhileBusy = true ∧
    refusedWith (step (idleWith cfgP2 [Slot.unpopulated] [.answer (failing 0)])) .answerWithoutRequest = true := by
  decide
/-- U17: the reserved order code, a memoized command register, one address twice; and a valid declaration. -/
theorem test_build :
    refusedWith (build ⟨.little, 3, 8, 0x48, 15, 32, []⟩) .invalidConfiguration = true ∧
    refusedWith (build ⟨.little, 1, 8, 0x48, 15, 32, [⟨0x10, 1, 0⟩]⟩) .invalidConfiguration = true ∧
    refusedWith (build ⟨.little, 1, 8, 0x48, 15, 32, [⟨0x10, 1, 1⟩, ⟨0x10, 2, 2⟩]⟩) .invalidConfiguration = true ∧
    nextIs (build ⟨.little, 2, 8, 0x48, 15, 32, [⟨0x10, 1, 3⟩]⟩) (fun t => decide (t = State.init cfgP2)) = true := by
  decide
/-- `withFetchWord` presents the packet that the next step runs (P2 step 1 with the reset instance's slot 0x30). -/
theorem test_fetch_word :
    endsWith (step (State.reset.withFetchWord 96 (0x63100000 + 0x30 * 2 ^ 32)))
      [rsp 0x04000000 0 [1]] [Slot.unpopulated, Slot.unpopulated, Slot.unpopulated] = true := by decide

/-! ### The text forms (R64, R66) -/

/-- P2 step 4. -/
theorem test_command_line :
    packetOfLine "WRMSK R(0x10,1,3), [23:16]=0x99".toList = some ⟨0x53110000, [0x10, 0x1710, 0x99]⟩ := by decide
/-- The `memo` list of P2 with its braces written as codes. -/
theorem test_config_line :
    (configOfLine 8 15 32 ("CONFIG order=big host=little dev=0x48 memo=".toList ++
      braceOpen :: (" R(0x10,1,3) ".toList ++ [braceClose]))).map RawCfg.check = some (some cfgP2) := by decide

/-! ### Witnesses: for each statement with hypotheses, a state and operands that meet all of them -/

/-- An uncached 2-byte register. -/
def r40 : Reg := ⟨0x40, .w1, .w2⟩
/-- The memoized 2-byte register of the reset instance, slot 1. -/
def r20 : Reg := ⟨0x20, .w1, .w2⟩
/-- The memoized 3-byte register of the reset instance, slot 2. -/
def r30 : Reg := ⟨0x30, .w1, .w3⟩
/-- The reset instance with nothing populated. -/
def cold (inputs : List Input) : State := { State.reset with inputs := inputs }
/-- The reset instance with slot 1 populated by 0x1234. -/
def hot (inputs : List Input) : State :=
  { State.reset with memo := [Slot.unpopulated, ⟨some 0x1234, true⟩, Slot.unpopulated], inputs := inputs }
/-- A success. -/
def yes : Answer := good 0x34 0x12 0 0
/-- A failure. -/
def no : Answer := failing (-1)
/-- A WRMSK of two fields with a gap that does not span. -/
def gap2 : List Entry := [⟨⟨9, 8⟩, 3⟩, ⟨⟨5, 2⟩, 0⟩]
/-- A WRMSK of two fields whose merged range spans. -/
def span2 : List Entry := [⟨⟨15, 8⟩, 0x21⟩, ⟨⟨7, 0⟩, 0x12⟩]

theorem yes_succeeds (l : List Input) : yes.succeeds (cold l) ∧ yes.succeeds (hot l) :=
  have h : 0 ≤ yes.signed Cfg.resetInstance := by decide
  ⟨h, h⟩
theorem no_fails (l : List Input) : ¬no.succeeds (cold l) ∧ ¬no.succeeds (hot l) :=
  have h : ¬0 ≤ no.signed Cfg.resetInstance := by decide
  ⟨h, h⟩
theorem cold_inv (l : List Input) : (cold l).Inv :=
  have h : (validCfg (cold []).cfg && slotsAgree (cold []).cfg.memo (cold []).memo && Seq.usable (cold []).cfg .idle) =
      true := by decide
  h
theorem hot_inv (l : List Input) : (hot l).Inv :=
  have h : (validCfg (hot []).cfg && slotsAgree (hot []).cfg.memo (hot []).memo && Seq.usable (hot []).cfg .idle) =
      true := by decide
  h

theorem witness_EncodedCommandDecodesToItself :
    validCfg Cfg.resetInstance = true ∧
      (Instr.wrmsk ⟨0xFFFFFFFFFFFFFFFF, .w8, .w8⟩ [⟨⟨63, 63⟩, 1⟩, ⟨⟨0, 0⟩, 1⟩]).wf Cfg.resetInstance = true := by decide
theorem witness_AcceptedPacketIsItsCommandsEncoding :
    decode Cfg.resetInstance ⟨0x48420000, [0x01020304, 0x3F00, 0x2708]⟩ =
      .accept (.rdmsk ⟨0x01020304, .w4, .w8⟩ [⟨63, 0⟩, ⟨39, 8⟩]) := by decide
theorem witness_AcceptedCommandIsWellFormed :
    decode Cfg.resetInstance ⟨0x23100000, [0x30, 0xFFFFFF]⟩ = .accept (.wrreg r30 0xFFFFFF) := by decide
theorem witness_RejectedPacketChangesNothing :
    validCfg (hot []).cfg = true ∧ (hot [.present ⟨0, []⟩]).seq = .idle ∧
      (hot [.present ⟨0, []⟩]).inputs = [.present ⟨0, []⟩] ∧ decode (hot []).cfg ⟨0, []⟩ = .reject .badOpcode := by
  decide
theorem witness_StepRunsThePresentedCommand :
    validCfg (hot []).cfg = true ∧ (hot [.present ⟨0x12100000, [0x20]⟩]).seq = .idle ∧
      (hot [.present ⟨0x12100000, [0x20]⟩]).inputs = [.present ⟨0x12100000, [0x20]⟩] ∧
      decode (hot []).cfg ⟨0x12100000, [0x20]⟩ = .accept (.rdreg r20) := by decide
/-- T_READ with a presentation, T_WRITE with a reset. -/
theorem witness_WaitingBlockRefusesPresentationAndReset :
    validCfg (cold []).cfg = true ∧
      ({ cold [.present ⟨0, []⟩] with seq := .tRead r20 .whole } : State).inputs = [.present ⟨0, []⟩] ∧
      ({ cold [.reset] with seq := .tWrite .command } : State).inputs = [.reset] := by decide
theorem witness_SilentTransportLeavesBlockStuck :
    validCfg (cold []).cfg = true ∧ ({ cold [] with seq := .tRead r20 .whole } : State).inputs = [] ∧
      ({ cold [] with seq := .tWrite .command } : State).inputs = [] := by decide
theorem witness_CommandWithoutAnswerRestsWaiting :
    (hot []).inputs = [] ∧ (Instr.rdreg r40).wf (hot []).cfg = true ∧ (hot []).hit 0x40 = false ∧
      (Instr.rdmsk r40 [⟨15, 15⟩]).wf (hot []).cfg = true ∧ (Instr.wrreg r20 0xFFFF).wf (hot []).cfg = true ∧
      (Instr.wrcmd 0xFF .w1).wf (hot []).cfg = true ∧
      (Instr.wrmsk r40 span2).wf (hot []).cfg = true ∧ mergeMasks span2 = some 0x2112 ∧
      spans .w2 (mergedMask ⟨15, 8⟩ [⟨7, 0⟩]) = true ∧
      (Instr.wrmsk r40 gap2).wf (hot []).cfg = true ∧ mergeMasks gap2 = some 0x300 ∧
      spans .w2 (mergedMask ⟨9, 8⟩ [⟨5, 2⟩]) = false ∧
      (Instr.wrmsk r20 gap2).wf (hot []).cfg = true ∧ (hot []).hit 0x20 = true ∧
      slotRead (hot []) (indexOf (hot []).cfg 0x20) = some 0x1234 := by decide
theorem witness_ResetEmptiesEverySlot :
    validCfg (hot [.reset]).cfg = true ∧ (hot [.reset]).seq = .idle ∧ (hot [.reset]).inputs = [.reset] ∧
      2 < (hot [.reset]).cfg.memo.length := by decide
theorem witness_FreshInstanceMeetsInvariant : validCfg cfgP2 = true := by decide

/-- A state whose step writes a populated slot. -/
def busyState : State := hot [.present ⟨0x52110000, [0x20, 0x0704, 0xA]⟩, .answer yes]

theorem witness_StepKeepsInstanceInvariant : busyState.Inv ∧ ∃ t, step busyState = .next t := by
  refine ⟨hot_inv _, ?_⟩
  obtain ⟨t, h, -⟩ := nextIs_exists (o := step busyState) (p := fun _ => true) (by decide)
  exact ⟨t, h⟩
theorem witness_StepRestsIdleOrWaiting : ∃ t, step busyState = .next t := witness_StepKeepsInstanceInvariant.2
theorem witness_StepKeepsConfiguration : ∃ t, step busyState = .next t := witness_StepKeepsInstanceInvariant.2
theorem witness_PopulatedSlotStaysPopulated :
    (∃ t, step busyState = .next t) ∧ (busyState.seq = .idle → ∀ rest, busyState.inputs ≠ .reset :: rest) ∧
      isPopulated busyState 1 = true :=
  ⟨witness_StepKeepsInstanceInvariant.2, fun _ _ h => (by cases h), by decide⟩
theorem witness_OnlyValidConfigurationsAreBuilt :
    ∃ t, build ⟨.little, 2, 8, 0x48, 15, 32, [⟨0xFF, 1, 3⟩, ⟨0xFFFF, 2, 8⟩]⟩ = .next t := by
  obtain ⟨t, h, -⟩ := nextIs_exists
    (o := build ⟨.little, 2, 8, 0x48, 15, 32, [⟨0xFF, 1, 3⟩, ⟨0xFFFF, 2, 8⟩]⟩) (p := fun _ => true) (by decide)
  exact ⟨t, h⟩

/-- Every command answers a next state with the block idle again, WRMSK in each of its paths. -/
theorem witness_completed :
    (nextIs (exec (.rdreg r20) (hot [])) fun t => decide (t.seq = .idle)) = true ∧
    (nextIs (exec (.rdreg r20) (cold [.answer yes])) fun t => decide (t.seq = .idle)) = true ∧
    (nextIs (exec (.wrreg r20 1) (cold [.answer yes])) fun t => decide (t.seq = .idle)) = true ∧
    (nextIs (exec (.wrcmd 0x41 .w1) (cold [.answer yes])) fun t => decide (t.seq = .idle)) = true ∧
    (nextIs (exec (.rdmsk r20 [⟨15, 0⟩]) (hot [])) fun t => decide (t.seq = .idle)) = true ∧
    (nextIs (exec (.wrmsk r20 span2) (cold [.answer yes])) fun t => decide (t.seq = .idle)) = true ∧
    (nextIs (exec (.wrmsk r20 gap2) (hot [.answer yes])) fun t => decide (t.seq = .idle)) = true ∧
    (nextIs (exec (.wrmsk r20 gap2) (cold [.answer yes, .answer yes])) fun t => decide (t.seq = .idle)) = true ∧
    (nextIs (exec (.wrmsk r20 gap2) (cold [.answer no])) fun t => decide (t.seq = .idle)) = true ∧
    (nextIs (exec (.ismemo 0x41 .w1 none) (cold [])) fun t => decide (t.seq = .idle)) = true := by decide

theorem witness_CommandFrame :
    (∃ t, exec (.wrcmd 0x41 .w1) (cold [.answer yes]) = .next t) ∧
      (∃ t, exec (.ismemo 0x41 .w1 none) (cold []) = .next t) ∧
      ∃ t, exec (.wrmsk r20 gap2) (hot [.answer yes]) = .next t := by
  obtain ⟨-, -, -, h1, -, -, h2, -, -, h3⟩ := witness_completed
  obtain ⟨t1, e1, -⟩ := nextIs_exists h1
  obtain ⟨t2, e2, -⟩ := nextIs_exists h2
  obtain ⟨t3, e3, -⟩ := nextIs_exists h3
  exact ⟨⟨t1, e1⟩, ⟨t3, e3⟩, ⟨t2, e2⟩⟩
theorem witness_RequestsCarryAddressesAndWholeRegisters :
    (∃ t, exec (.wrcmd 0x41 .w1) (cold [.answer yes]) = .next t) ∧
      ∃ t, exec (.wrmsk r20 gap2) (hot [.answer yes]) = .next t :=
  ⟨witness_CommandFrame.1, witness_CommandFrame.2.2⟩
theorem witness_TransportRequestCounts :
    ∃ t, exec (.wrmsk r20 gap2) (cold [.answer no]) = .next t ∧ t.seq = .idle := by
  obtain ⟨-, -, -, -, -, -, -, -, h, -⟩ := witness_completed
  obtain ⟨t, e, h⟩ := nextIs_exists h
  exact ⟨t, e, of_decide_eq_true h⟩
theorem witness_ResponsePacketFields :
    (List.replicate 15 (0 : Word)).length ≤ 15 ∧ -(2 ^ 63) ≤ (-(2 ^ 63) : Int) ∧ (2 ^ 63 - 1 : Int) < 2 ^ 63 := by decide
/-- A step that ends the command, and one that leaves it waiting. -/
theorem witness_EachCommandGetsOneResponse :
    (∃ p rest, busyState.inputs = .present p :: rest) ∧ (∃ t, step busyState = .next t) ∧
      ∃ t, step (cold [.present ⟨0x12100000, [0x20]⟩]) = .next t ∧ t.seq.phase = .tRead := by
  refine ⟨⟨_, _, rfl⟩, witness_StepKeepsInstanceInvariant.2, ?_⟩
  obtain ⟨t, e, h⟩ := nextIs_exists (o := step (cold [.present ⟨0x12100000, [0x20]⟩]))
    (p := fun t => decide (t.seq.phase = .tRead)) (by decide)
  exact ⟨t, e, of_decide_eq_true h⟩
theorem witness_OnlyTheSignOfASuccessMatters :
    yes.data = ({ yes with status := 5 } : Answer).data ∧ yes.succeeds (cold []) ∧
      ({ yes with status := 5 } : Answer).succeeds (cold []) ∧
      ∀ t, exec (.rdreg r20) (cold [.answer yes]) = .next t → t.inputs ≠ [.answer yes] := by
  refine ⟨rfl, (yes_succeeds _).1, by show (0 : Int) ≤ _; decide, ?_⟩
  obtain ⟨t, e, h⟩ := nextIs_exists (o := exec (.rdreg r20) (cold [.answer yes]))
    (p := fun t => decide (t.inputs = [])) (by decide)
  intro u hu
  rw [e] at hu
  cases hu
  rw [of_decide_eq_true h]
  exact fun h => by cases h
theorem witness_LateAnswerEndsCommandAlike :
    validCfg (cold []).cfg = true ∧ ∃ t, exec (.wrmsk r20 gap2) (cold [.answer yes]) = .next t ∧ t.seq ≠ .idle := by
  refine ⟨by decide, ?_⟩
  obtain ⟨t, e, h⟩ := nextIs_exists (o := exec (.wrmsk r20 gap2) (cold [.answer yes]))
    (p := fun t => decide (t.seq ≠ .idle)) (by decide)
  exact ⟨t, e, of_decide_eq_true h⟩

/-- Masks at both ends of the widest and the narrowest register: the hypothesis of the statements on masks. -/
theorem witness_masks :
    Mask.valid .w8 ⟨63, 0⟩ = true ∧ Mask.valid .w8 ⟨63, 63⟩ = true ∧ Mask.valid .w1 ⟨0, 0⟩ = true ∧
      Mask.valid .w3 ⟨23, 0⟩ = true := by decide
theorem witness_BitmaskCoversExactlyItsField : Mask.valid .w8 ⟨63, 0⟩ = true := witness_masks.1
theorem witness_ShiftOutExtractsTheField : Mask.valid .w8 ⟨63, 63⟩ = true := witness_masks.2.1
theorem witness_ShiftsAreInverse : Mask.valid .w2 ⟨11, 4⟩ = true ∧ (0xFF : Word).toNat < 2 ^ (11 - 4 + 1) := by decide
theorem witness_SpanningMaskCoversTheRegister : Mask.valid .w3 ⟨23, 0⟩ = true := witness_masks.2.2.2
theorem witness_ApplyMaskReplacesExactlyTheField :
    Mask.valid .w3 ⟨23, 16⟩ = true ∧ (0xFFFFFFFF : Word).toNat < 2 ^ backingBits .w3 ∧
      (0xFF : Word).toNat < 2 ^ (23 - 16 + 1) := by decide
theorem witness_ApplyShiftedReplacesTheRange :
    Mask.valid .w1 ⟨7, 4⟩ = true ∧ (0x6F : Word).toNat < 2 ^ backingBits .w1 ∧
      ∀ j, ¬(4 ≤ j ∧ j ≤ 7) → (shiftIn ⟨7, 4⟩ 9).getLsbD j = false :=
  ⟨by decide, by decide, fun _ hj => shiftIn_bit_outside (m := ⟨7, 4⟩) (by decide) (by decide) hj⟩
theorem witness_MergedValueHoldsEveryField :
    (∀ e ∈ gap2, e.mask.valid .w2 = true ∧ e.fits = true) ∧ mergeMasks gap2 = some 0x300 := by decide
theorem witness_MergeOrderDoesNotMatter : span2.Perm [⟨⟨7, 0⟩, 0x12⟩, ⟨⟨15, 8⟩, 0x21⟩] := .swap _ _ _
theorem witness_OverlapHasNoMergedValue :
    ∀ e ∈ [(⟨⟨7, 4⟩, 0xA⟩ : Entry), ⟨⟨5, 2⟩, 3⟩], e.mask.valid .w1 = true := by decide
theorem witness_MergedMaskIsTheLeastRange : ∀ n ∈ [(⟨9, 8⟩ : Mask), ⟨5, 2⟩], n.valid .w4 = true := by decide
theorem witness_DeviceBytesInEachOrder : 7 < Width.w8.bytes ∧ 2 < Width.w3.bytes := by decide
theorem witness_EndianConversionsRoundTrip : [(0x12 : Byte), 0x34, 0x56].length = Width.w3.bytes := by decide
theorem witness_HostOrderMattersOnlyForNative : (cold []).cfg.order ≠ .native := by decide
theorem witness_IndexOfFindsTheLeastSlot :
    (∃ m ∈ Cfg.resetInstance.memo, m.address = 0x30) ∧ ∀ m ∈ Cfg.resetInstance.memo, m.address ≠ 0x40 := by decide
theorem witness_SlotWriteAndMarkEffects : 2 < (cold []).memo.length := by decide

theorem witness_RdregResult :
    (Instr.rdreg r20).wf (hot []).cfg = true ∧ (hot []).hit 0x20 = true ∧
      slotRead (hot []) (indexOf (hot []).cfg 0x20) = some 0x1234 ∧
      (cold [.answer yes]).hit 0x20 = false ∧ yes.succeeds (cold []) ∧ ¬no.succeeds (cold []) :=
  ⟨by decide, by decide, by decide, by decide, (yes_succeeds _).1, (no_fails _).1⟩
theorem witness_WrregResult :
    (Instr.wrreg r30 0xFFFFFF).wf (cold []).cfg = true ∧ (cold [.answer yes]).inputs = [.answer yes] ∧
      yes.succeeds (cold []) ∧ ¬no.succeeds (cold []) ∧ addressFits r30.address .w1 = true ∧
      2 ^ (8 * r30.width.bytes) ≤ (0x1000000 : Word).toNat :=
  ⟨by decide, rfl, (yes_succeeds _).1, (no_fails _).1, by decide, by decide⟩
theorem witness_WrcmdResult :
    (Instr.wrcmd 0xFF .w1).wf (cold []).cfg = true ∧ (cold [.answer no]).inputs = [.answer no] ∧
      addressFits 0x30 .w1 = true ∧ ∃ m ∈ Cfg.resetInstance.memo, m.address = 0x30 := by decide
theorem witness_RdmskResult :
    (Instr.rdmsk r20 [⟨15, 0⟩, ⟨15, 15⟩, ⟨0, 0⟩]).wf (hot []).cfg = true ∧ (hot []).hit 0x20 = true ∧
      slotRead (hot []) (indexOf (hot []).cfg 0x20) = some 0x1234 ∧
      (cold [.answer yes]).hit 0x20 = false ∧ yes.succeeds (cold []) ∧ ¬no.succeeds (cold []) :=
  ⟨by decide, by decide, by decide, by decide, (yes_succeeds _).1, (no_fails _).1⟩
theorem witness_WrmskSpanningResult :
    (Instr.wrmsk r20 span2).wf (cold []).cfg = true ∧ mergeMasks span2 = some 0x2112 ∧
      spans .w2 (mergedMask ⟨15, 8⟩ [⟨7, 0⟩]) = true ∧ yes.succeeds (cold []) ∧ ¬no.succeeds (cold []) :=
  ⟨by decide, by decide, by decide, (yes_succeeds _).1, (no_fails _).1⟩
theorem witness_WrmskMergesIntoThePopulatedSlot :
    (Instr.wrmsk r20 gap2).wf (hot []).cfg = true ∧ mergeMasks gap2 = some 0x300 ∧
      spans .w2 (mergedMask ⟨9, 8⟩ [⟨5, 2⟩]) = false ∧ (hot []).hit 0x20 = true ∧
      slotRead (hot []) (indexOf (hot []).cfg 0x20) = some 0x1234 ∧ yes.succeeds (hot []) ∧ ¬no.succeeds (hot []) :=
  ⟨by decide, by decide, by decide, by decide, by decide, (yes_succeeds _).2, (no_fails _).2⟩
/-- A failed read; a read and a write; a read and a failed write. -/
theorem witness_WrmskReadsMergesAndWrites :
    (Instr.wrmsk r20 gap2).wf (cold []).cfg = true ∧ mergeMasks gap2 = some 0x300 ∧
      spans .w2 (mergedMask ⟨9, 8⟩ [⟨5, 2⟩]) = false ∧ (cold []).hit 0x20 = false ∧
      (cold [.answer yes, .answer no]).inputs = [.answer yes, .answer no] ∧
      yes.succeeds (cold []) ∧ ¬no.succeeds (cold []) :=
  ⟨by decide, by decide, by decide, by decide, rfl, (yes_succeeds _).1, (no_fails _).1⟩
/-- The span path and the other; bit 7 is a gap bit of `gap2`. -/
theorem witness_WrmskGapBitsAreWrittenZero :
    (∀ x ∈ gap2, x.mask.valid .w2 = true ∧ x.fits = true) ∧ mergeMasks gap2 = some 0x300 ∧
      valueFits 0xFFFF .w2 = true ∧ (∀ x ∈ gap2, ¬(x.mask.lo ≤ 7 ∧ 7 ≤ x.mask.hi)) ∧
      (∀ x ∈ span2, x.mask.valid .w2 = true ∧ x.fits = true) ∧ mergeMasks span2 = some 0x2112 := by decide
theorem witness_OverlappingWrmskIsRefused :
    (Instr.wrmsk r20 [⟨⟨7, 4⟩, 0xA⟩, ⟨⟨4, 2⟩, 3⟩]).wf (cold []).cfg = true ∧
      someBitInTwoMasks [⟨⟨7, 4⟩, 0xA⟩, ⟨⟨4, 2⟩, 3⟩] :=
  ⟨by decide, 0, 1, 4, ⟨⟨7, 4⟩, 0xA⟩, ⟨⟨4, 2⟩, 3⟩, by decide, rfl, rfl, by decide, by decide⟩
theorem witness_IsmemoResult :
    (Instr.ismemo 0x30 .w1 (some .w3)).wf (cold []).cfg = true ∧ (∃ m ∈ (cold []).cfg.memo, m.address = 0x30) ∧
      (Instr.ismemo 0x40 .w1 none).wf (cold []).cfg = true ∧ ∀ m ∈ (cold []).cfg.memo, m.address ≠ 0x40 := by decide
theorem witness_IsmemoMatchesTheWholeDescriptor :
    (Instr.ismemo 0x30 .w1 (some .w3)).wf Cfg.resetInstance = true ∧
      isCacheable Cfg.resetInstance (indexOf Cfg.resetInstance 0x30) = true := by decide
theorem witness_WholeRegisterMaskWriteIsRegisterWrite :
    validCfg (cold []).cfg = true ∧ (Instr.wrreg r30 0xFFFFFF).wf (cold []).cfg = true := by decide
theorem witness_CacheTransparency :
    ∃ s : State, s = cold (.present (encode (.rdreg r20)) :: .answer yes ::
        (List.replicate 2 (.present (encode (.rdreg r20))) ++ [])) ∧
      s.Inv ∧ s.seq = .idle ∧ (Instr.rdreg r20).wf s.cfg = true ∧
      isCacheable s.cfg (indexOf s.cfg r20.address) = true ∧ s.hit r20.address = false ∧ yes.succeeds s :=
  ⟨_, rfl, cold_inv _, rfl, by decide, by decide, by decide, (yes_succeeds _).1⟩
/-- A memoized register, and one that is not, read back with the bytes written. -/
theorem witness_WriteThenReadReturnsTheValue :
    (cold [.answer yes, .answer yes]).Inv ∧ (Instr.wrreg r20 0x1234).wf (cold []).cfg = true ∧
      isCacheable (cold []).cfg (indexOf (cold []).cfg 0x20) = true ∧
      (Instr.wrreg r40 0x1234).wf (cold []).cfg = true ∧
      isCacheable (cold []).cfg (indexOf (cold []).cfg 0x40) = false ∧ yes.succeeds (cold []) ∧
      yes.bytes 2 = toDev (effOrder (cold []).cfg) 0x1234 .w2 :=
  ⟨cold_inv _, by decide, by decide, by decide, by decide, (yes_succeeds _).1, by decide⟩
/-- The three clauses: memoized; not memoized and spanning; not memoized and not spanning, the transport reading back
first the value written and then the value merged. -/
theorem witness_MaskedWritePreservesUntouchedBits :
    (cold [.answer yes, .answer yes]).Inv ∧ (Instr.wrreg r20 0x1234).wf (cold []).cfg = true ∧
      (Instr.writeMask r20 ⟨7, 4⟩ 0xA).wf (cold []).cfg = true ∧
      isCacheable (cold []).cfg (indexOf (cold []).cfg 0x20) = true ∧
      (Instr.wrreg r40 0x1234).wf (cold []).cfg = true ∧
      isCacheable (cold []).cfg (indexOf (cold []).cfg 0x40) = false ∧
      (Instr.writeMask r40 ⟨15, 0⟩ 0x1234).wf (cold []).cfg = true ∧ spans .w2 ⟨15, 0⟩ = true ∧
      yes.bytes 2 = toDev (effOrder (cold []).cfg) (applyMask .w2 ⟨15, 0⟩ 0x1234 0x1234) .w2 ∧
      (Instr.writeMask r40 ⟨7, 4⟩ 0xA).wf (cold []).cfg = true ∧ spans .w2 ⟨7, 4⟩ = false ∧
      yes.bytes 2 = toDev (effOrder (cold []).cfg) 0x1234 .w2 ∧
      (good 0xA4 0x12 0 0).bytes 2 = toDev (effOrder (cold []).cfg) (applyMask .w2 ⟨7, 4⟩ 0x1234 0xA) .w2 ∧
      yes.succeeds (cold []) ∧ (good 0xA4 0x12 0 0).succeeds (cold []) :=
  ⟨cold_inv _, by decide, by decide, by decide, by decide, by decide, by decide, by decide, by decide, by decide,
    by decide, by decide, by decide, (yes_succeeds _).1, by show (0 : Int) ≤ _; decide⟩
theorem witness_MaskedReadAfterWriteReturnsTheFields :
    (cold [.answer yes, .answer yes]).Inv ∧ (Instr.wrreg r20 0x1234).wf (cold []).cfg = true ∧
      (Instr.rdmsk r20 [⟨15, 8⟩, ⟨0, 0⟩]).wf (cold []).cfg = true ∧
      isCacheable (cold []).cfg (indexOf (cold []).cfg 0x20) = true ∧
      (Instr.wrreg r40 0x1234).wf (cold []).cfg = true ∧ (Instr.rdmsk r40 [⟨15, 8⟩]).wf (cold []).cfg = true ∧
      isCacheable (cold []).cfg (indexOf (cold []).cfg 0x40) = false ∧ yes.succeeds (cold []) ∧
      yes.bytes 2 = toDev (effOrder (cold []).cfg) 0x1234 .w2 :=
  ⟨cold_inv _, by decide, by decide, by decide, by decide, by decide, by decide, (yes_succeeds _).1, by decide⟩

end Sys2Proof.Tests
end

section
/-! PROOFS. What every step and every command keeps (10_state.md): the statements on the sequencer, on the invariant, on
what `build` admits, and on the frame and the requests of a command. -/

namespace Sys2Proof.Machine

open Sys2Proof

/-! ### One step, phase by phase -/

/-- A packet that decodes to a command runs the command (R59). -/
theorem runPacket_accept {p : Packet} {s : State} {i : Instr} (h : decode s.cfg p = .accept i) :
    runPacket p s = exec i s := by
  simp only [runPacket, h]

/-- An idle block with a packet presented latches the packet and runs it (R19). -/
theorem step_present {s : State} {p : Packet} {rest : List Input} (hv : validCfg s.cfg = true) (hs : s.seq = .idle)
    (hi : s.inputs = .present p :: rest) : step s = runPacket p (latch p rest s) := by
  simp only [step_valid hv, phaseStep, hs, idleStep, hi]

/-- A block with a request outstanding and an event at hand is at the wait for the answer (R19). -/
theorem step_waiting {s : State} (hv : validCfg s.cfg = true) (hi : s.inputs ≠ [])
    (hs : (∃ reg k, s.seq = .tRead reg k) ∨ (∃ job, s.seq = .tWrite job)) :
    ∃ q k, step s = awaitAnswer q k s := by
  rcases hs with ⟨reg, k, hs⟩ | ⟨job, hs⟩
  · exact ⟨.tRead reg k, onReadAnswer reg k, by simp only [step_valid hv, phaseStep, hs, if_neg hi, awaitRead]⟩
  · exact ⟨.tWrite job, onWriteAnswer job, by simp only [step_valid hv, phaseStep, hs, if_neg hi, awaitWrite]⟩

/-- Settles O7: the step latches the packet and runs it, and it decodes to the command. -/
theorem stepRunsThePresentedCommand : Obligations.StepRunsThePresentedCommand := by
  intro s p rest i hv hs hi hd
  rw [step_present hv hs hi, runPacket_accept (by exact hd)]
  rfl

/-- Settles O8: the step is the wait for the answer, which refuses both events by name. -/
theorem waitingBlockRefusesPresentationAndReset : Obligations.WaitingBlockRefusesPresentationAndReset := by
  intro s rest hv hs
  constructor
  · intro p hi
    obtain ⟨q, k, e⟩ := step_waiting hv (by simp [hi]) hs
    rw [e, awaitAnswer_present hi]
  · intro hi
    obtain ⟨q, k, e⟩ := step_waiting hv (by simp [hi]) hs
    rw [e, awaitAnswer_reset hi]

/-! ### The invariant -/

/-- What a command in progress keeps of the invariant: the configuration is `c` and the slots agree with its registers
(R14, R110). Its phase may be any. -/
def slotsSound (c : Cfg) (s : State) : Prop := s.cfg = c ∧ slotsAgree c.memo s.memo = true

/-- A value a command on a register of width `w` may cache: there is a register, and the value fits it. -/
def fitsWidth (w : Option Width) (v : Word) : Prop := ∃ wd, w = some wd ∧ valueFits v wd = true

theorem fitsWidth_some (w : Width) (v : Word) : fitsWidth (some w) v ↔ valueFits v w = true := by
  simp [fitsWidth]

theorem slotsSound_of_inv {s : State} (h : s.Inv) : slotsSound s.cfg s := ⟨rfl, ((inv_iff s).1 h).2.1⟩

/-- Sound slots and a phase of a decoded command make the invariant. -/
theorem inv_of_slotsSound {c : Cfg} {s : State} (hv : validCfg c = true) (hs : slotsSound c s)
    (hq : s.seq.usable c = true) : s.Inv := by
  obtain ⟨rfl, hm⟩ := hs
  exact (inv_iff s).2 ⟨hv, hm, hq⟩

/-- The moves of a command whose register has the shape of its slot keep the slots sound and end in the invariant. -/
theorem slotsSound_closed {c : Cfg} {a : Word} {aw : Width} {w : Option Width} (hv : validCfg c = true)
    (hm : ∀ wd, w = some wd → shapeMatches c a aw (some wd) = true) :
    Closed c a (fitsWidth w) (fun q => q.usable c = true) (fun _ => True) (slotsSound c) State.Inv where
  cfg _ h := h.1
  request _ _ _ h := h
  respond _ _ h := inv_of_slotsSound hv h rfl
  take _ _ _ _ h := h
  rest _ _ _ hq h := inv_of_slotsSound hv h hq
  cache s v := by
    rintro ⟨wd, hw, hfit⟩ ⟨rfl, hs⟩
    exact ⟨cache_cfg a v s, cache_slotsAgree hs (hm wd hw) hfit⟩

/-- `slotsSound_closed` for a usable register. -/
theorem slotsSound_closed_reg {c : Cfg} {reg : Reg} (hv : validCfg c = true) (hu : regUsable c reg = true) :
    Closed c reg.address (fitsWidth (some reg.width)) (fun q => q.usable c = true) (fun _ => True) (slotsSound c)
      State.Inv :=
  slotsSound_closed hv fun _ hw => by cases hw; exact usable_shape hu

theorem tWrite_usable {c : Cfg} {reg : Reg} {v : Word} (hu : regUsable c reg = true)
    (hfit : valueFits v reg.width = true) : (Seq.tWrite (.register reg v)).usable c = true := by
  simp [Seq.usable, WriteJob.usable, hu, hfit]

/-- A command run on sound slots ends in the invariant (R14, R110, R114). -/
theorem exec_keeps_inv {i : Instr} {s t : State} (hv : validCfg s.cfg = true) (hs : slotsSound s.cfg s)
    (h : exec i s = .next t) : t.Inv := by
  obtain ⟨-, -, -, -, hshape⟩ := wf_parts (exec_next_wf h)
  have hm : ∀ wd, i.width = some wd → shapeMatches s.cfg i.address i.addressWidth (some wd) = true := by
    intro wd hw
    rw [← hw]
    exact hshape
  refine exec_closed (slotsSound_closed hv hm) ?_ (fun _ => ⟨rfl, trivial⟩) ?_ hs h
  · intro reg _ _ hw hu
    simp only [hw, fitsWidth_some]
    refine ⟨trivial, fun _ => trivial, fun a => toLocal_fits _ _ _ (answer_bytes_length a reg.width), ?_, ?_, ?_⟩
    · intro v hfit
      exact ⟨hfit, tWrite_usable hu hfit⟩
    · intro k hk
      simp [Seq.usable, hu, hk]
    · intro m mv v hmask hmv hfit
      have hmerged := applyShifted_fits hmask hfit hmv
      exact ⟨hmerged, tWrite_usable hu hmerged⟩
  · intro w hw v hh hval
    simp only [State.hit, Bool.and_eq_true] at hh
    exact ⟨w, hw, slotRead_fits hs.2 (hm w hw) hh.1 hval⟩

/-- The answer to the read of a decoded command ends in the invariant (R125). -/
theorem onReadAnswer_keeps_inv {reg : Reg} {k : AfterRead} {a : Answer} {c : Cfg} {s t : State}
    (hv : validCfg c = true) (hu : (Seq.tRead reg k).usable c = true) (hs : slotsSound c s)
    (h : onReadAnswer reg k a s = .next t) : t.Inv := by
  simp only [Seq.usable, Bool.and_eq_true] at hu
  obtain ⟨hreg, hk⟩ := hu
  refine onReadAnswer_closed (slotsSound_closed_reg hv hreg) ?_ ?_ hs h
  · rintro m mv rfl v hfit
    rw [fitsWidth_some] at *
    simp only [AfterRead.usable, Bool.and_eq_true] at hk
    have hmerged := applyShifted_fits hk.1 hfit hk.2
    exact ⟨hmerged, tWrite_usable hreg hmerged, trivial⟩
  · rw [fitsWidth_some]
    exact toLocal_fits _ _ _ (answer_bytes_length a reg.width)

/-- The answer to the write of a decoded command ends in the invariant (R126, R129). -/
theorem onWriteAnswer_keeps_inv {job : WriteJob} {a : Answer} {c : Cfg} {s t : State}
    (hv : validCfg c = true) (hu : job.usable c = true) (hs : slotsSound c s)
    (h : onWriteAnswer job a s = .next t) : t.Inv := by
  cases job with
  | command =>
    have hc := slotsSound_closed (a := 0) (aw := .w1) (w := none) hv (fun _ hw => by cases hw)
    exact onWriteAnswer_closed hc (fun _ _ e => by cases e) hs h
  | register reg v =>
    simp only [WriteJob.usable, Bool.and_eq_true] at hu
    obtain ⟨hreg, hfit⟩ := hu
    refine onWriteAnswer_closed (slotsSound_closed_reg hv hreg) ?_ hs h
    intro reg' v' e
    cases e
    exact ⟨rfl, (fitsWidth_some _ _).2 hfit⟩

/-- Running a packet on sound slots ends in the invariant. -/
theorem runPacket_keeps_inv {p : Packet} {s t : State} (hv : validCfg s.cfg = true) (hs : slotsSound s.cfg s)
    (h : runPacket p s = .next t) : t.Inv := by
  rcases runPacket_next h with ⟨i, -, h⟩ | ⟨e, -, rfl⟩
  · exact exec_keeps_inv hv hs h
  · exact inv_of_slotsSound hv hs rfl

/-- Reset ends in the invariant, whatever the slots held (R180). -/
theorem resetBlock_inv {s : State} (hv : validCfg s.cfg = true) : (resetBlock s).Inv :=
  (inv_iff _).2 ⟨hv, slotsAgree_unpopulated _, rfl⟩

theorem init_inv {cfg : Cfg} (hv : validCfg cfg = true) : (State.init cfg).Inv :=
  (inv_iff _).2 ⟨hv, slotsAgree_unpopulated _, rfl⟩

/-- Settles O13, phase by phase: the elementary moves keep the slots sound (`slotsSound_closed`), and the phase a
command rests in holds a usable register and a value that fits it. -/
theorem stepKeepsInstanceInvariant : Obligations.StepKeepsInstanceInvariant := by
  intro s t hinv h
  obtain ⟨hv, -, hq⟩ := (inv_iff s).1 hinv
  have hs := slotsSound_of_inv hinv
  rcases phaseStep_next (step_next_valid h).2 with ⟨-, h⟩ | ⟨p, -, h⟩ | ⟨reg, k, a, rest, hseq, -, h⟩ |
    ⟨job, a, rest, hseq, -, h⟩ | ⟨r, -, rfl⟩
  · rcases idleStep_next h with ⟨-, rfl⟩ | ⟨p, rest, -, h⟩ | ⟨rest, -, rfl⟩
    · exact hinv
    · exact runPacket_keeps_inv (s := latch p rest s) hv hs h
    · exact resetBlock_inv (s := { s with inputs := rest }) hv
  · exact runPacket_keeps_inv hv hs h
  · exact onReadAnswer_keeps_inv (s := { s with inputs := rest }) hv (by rwa [hseq] at hq) hs h
  · rw [hseq] at hq
    exact onWriteAnswer_keeps_inv (s := { s with inputs := rest }) hv hq hs h
  · exact inv_of_slotsSound hv hs rfl

/-- Settles O12: the unpopulated slots agree with any registers. -/
theorem freshInstanceMeetsInvariant : Obligations.FreshInstanceMeetsInvariant :=
  ⟨fun _ hv => init_inv hv, init_inv (by decide)⟩

/-! ### What every step keeps -/

/-- Every step keeps the configuration and ends idle or waiting. -/
theorem step_keeps_cfg_and_rests {s t : State} (h : step s = .next t) :
    t.cfg = s.cfg ∧ (t.seq = .idle ∨ waitingPhase t.seq) := by
  have hc : ∀ a, Closed s.cfg a (fun _ => True) waitingPhase (fun _ => True) (fun u => u.cfg = s.cfg)
      (fun u => u.cfg = s.cfg ∧ (u.seq = .idle ∨ waitingPhase u.seq)) := fun a =>
    { cfg := fun _ hu => hu
      request := fun _ _ _ hu => hu
      respond := fun _ _ hu => ⟨hu, .inl rfl⟩
      take := fun _ _ _ _ hu => hu
      rest := fun _ _ _ hq hu => ⟨hu, .inr hq⟩
      cache := fun u v _ hu => (cache_cfg a v u).trans hu }
  exact step_closed hc (fun hs _ => ⟨rfl, .inl hs⟩) (fun _ _ _ _ => rfl) (fun _ _ _ => ⟨rfl, .inl rfl⟩)
    (fun _ => rfl) h

/-- Settles O14. -/
theorem stepRestsIdleOrWaiting : Obligations.StepRestsIdleOrWaiting := by
  intro s t h
  rcases (step_keeps_cfg_and_rests h).2 with hs | hs
  · exact .inl (by rw [hs]; rfl)
  · exact .inr hs

/-- Settles O16. -/
theorem stepKeepsConfiguration : Obligations.StepKeepsConfiguration :=
  fun _ _ h => (step_keeps_cfg_and_rests h).1

/-- Caching a value leaves every populated slot populated: it writes a slot that is marked seen (R116, R117). -/
theorem isPopulated_cache {s : State} {i : Nat} (a v : Word) (h : isPopulated s i = true) :
    isPopulated (cache a v s) i = true := by
  by_cases hi : i = indexOf s.cfg a
  · subst hi
    simp only [isPopulated] at h ⊢
    rw [cache_memo]
    split_ifs with hc
    · cases hx : s.memo[indexOf s.cfg a]? with
      | none => simp [hx] at h
      | some x =>
        rw [List.getElem?_set_self (List.getElem?_eq_some_iff.1 hx).1]
    · exact h
  · simpa only [isPopulated, cache_memo_frame a v s i hi] using h

/-- Settles O15: of the elementary moves only `cache` writes a slot, and it marks the slot seen. -/
theorem populatedSlotStaysPopulated : Obligations.PopulatedSlotStaysPopulated := by
  intro s t i h hreset hpop
  have hc : ∀ a, Closed s.cfg a (fun _ => True) waitingPhase (fun _ => True)
      (fun u => u.cfg = s.cfg ∧ isPopulated u i = true) (fun u => isPopulated u i = true) := fun a =>
    { cfg := fun _ hu => hu.1
      request := fun _ _ _ hu => hu
      respond := fun _ _ hu => hu.2
      take := fun _ _ _ _ hu => hu
      rest := fun _ _ _ _ hu => hu.2
      cache := fun u v _ hu => ⟨(cache_cfg a v u).trans hu.1, isPopulated_cache a v hu.2⟩ }
  exact step_closed hc (fun _ _ => hpop) (fun _ _ _ _ => ⟨rfl, hpop⟩)
    (fun rest hs hi => absurd hi (hreset hs rest)) (fun _ => ⟨rfl, hpop⟩) h

/-! ### What `build` admits -/

theorem orderOfCode_some {c : BitVec 2} {o : DeviceOrder} (h : orderOfCode c = some o) : c ≠ 3 := by
  rintro rfl
  cases h

/-- A number that names a width is the width's number of bytes. -/
theorem bytes_of_widthOfNat {n : Nat} {w : Width} (h : widthOfNat n = some w) : w.bytes = n := by
  simp only [widthOfNat] at h
  split at h <;> cases h <;> rfl

theorem bytes_mem (w : Width) : w.bytes ∈ [1, 2, 3, 4, 8] := by cases w <;> decide

/-- What a declared entry that passes (a), (b), (c) of R13 has, and the address it gets. -/
theorem check_some {r : RawReg} {m : Reg} (h : r.check = some m) :
    (r.width ∈ [1, 2, 3, 4, 8] ∧ r.addressWidth ∈ [1, 2, 3, 4, 8] ∧ r.address < 2 ^ (8 * r.addressWidth)) ∧
      m.address = BitVec.ofNat 64 r.address := by
  simp only [RawReg.check] at h
  split at h
  · rename_i w aw hw haw
    split_ifs at h with hlt
    cases h
    rw [← bytes_of_widthOfNat hw, ← bytes_of_widthOfNat haw]
    exact ⟨⟨bytes_mem w, bytes_mem aw, hlt⟩, rfl⟩
  · cases h

/-- Where every declared entry passes, the registers are theirs, one for one, by address. -/
theorem checkRegs_some {rs : List RawReg} {ms : List Reg} (h : checkRegs rs = some ms) :
    (∀ r ∈ rs, ∃ m, r.check = some m) ∧ ms.map Reg.address = rs.map fun r => BitVec.ofNat 64 r.address := by
  induction rs generalizing ms with
  | nil => cases h; simp
  | cons r rs ih =>
    simp only [checkRegs] at h
    split at h
    · rename_i m ms' hr hrs
      cases h
      obtain ⟨h1, h2⟩ := ih hrs
      have haddr := (check_some hr).2
      exact ⟨List.forall_mem_cons.2 ⟨⟨m, hr⟩, h1⟩, by simp only [List.map_cons, haddr, h2]⟩
    · cases h

theorem addressesDistinct_pairwise {ms : List Reg} (h : addressesDistinct ms = true) :
    (ms.map Reg.address).Pairwise (· ≠ ·) := by
  induction ms with
  | nil => exact .nil
  | cons m ms ih =>
    simp only [addressesDistinct, Bool.and_eq_true, List.all_eq_true] at h
    refine List.pairwise_cons.2 ⟨?_, ih h.2⟩
    intro a ha
    obtain ⟨n, hn, rfl⟩ := List.mem_map.1 ha
    have hne : n.address ≠ m.address := by simpa using h.1 n hn
    exact hne.symm

/-- What a declaration that makes a configuration has passed (R11, R13). -/
theorem rawCheck_some {raw : RawCfg} {cfg : Cfg} (h : raw.check = some cfg) :
    (∃ o, orderOfCode raw.orderCode = some o) ∧ checkRegs raw.memo = some cfg.memo ∧ cfg.devAddr = raw.devAddr ∧
      addressesDistinct cfg.memo = true := by
  simp only [RawCfg.check] at h
  split at h
  · rename_i o memo ho hm
    split_ifs at h with hv
    cases h
    simp only [validCfg, Bool.and_eq_true] at hv
    exact ⟨⟨o, ho⟩, hm, rfl, hv.2⟩
  · cases h

theorem build_next {raw : RawCfg} {s : State} (h : build raw = .next s) :
    ∃ cfg, raw.check = some cfg ∧ s = State.init cfg := by
  simp only [build] at h
  split at h <;> cases h
  exact ⟨_, ‹_›, rfl⟩

/-- Settles O17: the declared entries and the registers made of them have the same addresses in the same order. -/
theorem onlyValidConfigurationsAreBuilt : Obligations.OnlyValidConfigurationsAreBuilt := by
  intro raw s h
  obtain ⟨cfg, hcheck, rfl⟩ := build_next h
  obtain ⟨⟨o, ho⟩, hregs, hdev, hdistinct⟩ := rawCheck_some hcheck
  obtain ⟨hall, haddr⟩ := checkRegs_some hregs
  refine ⟨orderOfCode_some ho, ?_, ?_, rfl, ?_, hdev⟩
  · intro r hr
    obtain ⟨m, hm⟩ := hall r hr
    exact (check_some hm).1
  · have hpair := addressesDistinct_pairwise hdistinct
    rw [haddr, List.pairwise_map] at hpair
    exact hpair.imp fun hne e => hne (by rw [e])
  · have hlen : cfg.memo.length = raw.memo.length := by simpa using congrArg List.length haddr
    exact hlen

/-! ### The frame of a command -/

/-- The frame of a command on the register at `a`, from `s` to `u`: the configuration stays, the slots are as before but
that the register's own may hold a value of which `F` is known, output is only added, and of the inputs only answers are
consumed. -/
structure FramedBy (F : Word → Prop) (s : State) (a : Word) (u : State) : Prop where
  cfg : u.cfg = s.cfg
  memo : u.memo = s.memo ∨ ∃ v, F v ∧ u.memo = slotsHolding s a v
  out : ∃ sent, u.out = s.out ++ sent
  inputs : ∃ used : List Answer, s.inputs = used.map Input.answer ++ u.inputs

theorem FramedBy.refl (F : Word → Prop) (s : State) (a : Word) : FramedBy F s a s :=
  ⟨rfl, .inl rfl, ⟨[], by simp⟩, ⟨[], rfl⟩⟩

/-- A frame is about everything but the phase. -/
theorem FramedBy.withSeq {F : Word → Prop} {s u : State} {a : Word} (h : FramedBy F s a u) (q : Seq) :
    FramedBy F s a { u with seq := q } :=
  ⟨h.cfg, h.memo, h.out, h.inputs⟩

theorem FramedBy.emit {F : Word → Prop} {s u : State} {a : Word} (h : FramedBy F s a u) (o : Output) :
    FramedBy F s a (emit o u) := by
  obtain ⟨sent, hout⟩ := h.out
  exact ⟨h.cfg, h.memo, ⟨sent ++ [o], by rw [emit_out, hout, List.append_assoc]⟩, h.inputs⟩

theorem FramedBy.take {F : Word → Prop} {s u : State} {a : Word} (h : FramedBy F s a u) {x : Answer} {l : List Input}
    (hi : u.inputs = .answer x :: l) : FramedBy F s a { u with inputs := l } := by
  obtain ⟨used, hin⟩ := h.inputs
  exact ⟨h.cfg, h.memo, h.out, ⟨used ++ [x], by simp [hin, hi]⟩⟩

/-- A second value cached for the register replaces the first (R115). -/
theorem FramedBy.cache {F : Word → Prop} {s u : State} {a v : Word} (h : FramedBy F s a u) (hF : F v) :
    FramedBy F s a (cache a v u) := by
  refine ⟨(cache_cfg a v u).trans h.cfg, .inr ⟨v, hF, ?_⟩, by simpa using h.out, by simpa using h.inputs⟩
  rw [cache_slotsHolding]
  rcases h.memo with hm | ⟨v', -, hm⟩ <;> simp only [slotsHolding, h.cfg, hm]
  split_ifs
  · exact List.set_set ..
  · rfl

/-- The elementary moves of a command stay in its frame. -/
theorem framedBy_closed (F : Word → Prop) (Q : Seq → Prop) (R : Request → Prop) (s : State) (a : Word) :
    Closed s.cfg a F Q R (FramedBy F s a) (FramedBy F s a) where
  cfg _ h := h.cfg
  request _ _ _ h := h.emit _
  respond _ _ h := (h.withSeq .idle).emit _
  take _ _ _ hi h := h.take hi
  rest _ _ _ _ h := h.withSeq _
  cache _ _ hF h := h.cache hF

/-- Holding a value for the register at `a` changes no slot but its own (R115). -/
theorem slotsHolding_frame (s : State) (a v : Word) {j : Nat} (hj : j ≠ indexOf s.cfg a) :
    (slotsHolding s a v)[j]? = s.memo[j]? := by
  simp only [slotsHolding]
  split_ifs
  · exact List.getElem?_set_ne hj.symm
  · rfl

/-- WRCMD caches no value, so no slot changes (R129). -/
theorem wrcmd_memo {a : Word} {aw : Width} {s t : State} (h : exec (.wrcmd a aw) s = .next t) : t.memo = s.memo := by
  have hc := framedBy_closed (fun _ => False) (fun _ => True) (fun _ => True) s a
  have hframe : FramedBy (fun _ => False) s a t :=
    awaitWrite_closed hc trivial (fun _ _ e => by cases e) ((FramedBy.refl _ s a).emit _) (whenValid_next h).2
  simpa using hframe.memo

/-- ISMEMO only answers (R134). -/
theorem ismemo_memo {a : Word} {aw : Width} {w : Option Width} {s t : State}
    (h : exec (.ismemo a aw w) s = .next t) : t.memo = s.memo := by
  cases (whenValid_next h).2
  rfl

/-- Settles O18: the elementary moves stay in the frame, and WRCMD and ISMEMO cache nothing. -/
theorem commandFrame : Obligations.CommandFrame := by
  intro i s t h
  have hframe : FramedBy (fun _ => True) s i.address t :=
    exec_moves (framedBy_closed _ _ _ s i.address) (FramedBy.refl _ s _) h
  obtain ⟨hcfg, hmemo, hout, hin⟩ := hframe
  refine ⟨hcfg, ?_, by simpa using hmemo, ⟨?_, ?_⟩, hout, hin⟩
  · intro j hj
    rcases hmemo with hm | ⟨v, -, hm⟩
    · rw [hm]
    · rw [hm, slotsHolding_frame s _ v hj]
  · rintro a aw rfl
    exact wrcmd_memo h
  · rintro a aw w rfl
    exact ismemo_memo h

/-! ### The requests of a command -/

@[simp] theorem requestsOf_append (l m : List Output) : requestsOf (l ++ m) = requestsOf l ++ requestsOf m := by
  induction l with
  | nil => rfl
  | cons o l ih => cases o <;> simp [requestsOf, ih]

/-- A request for the register of the command `i`, field by field: the device address, the register's address in device
order, its width, and the register's number of bytes (R31, R32, R37). -/
def RequestsRegisterOf (c : Cfg) (i : Instr) (r : Request) : Prop :=
  (∃ w, i.width = some w ∧
    r = .read c.devAddr (toDev (effOrder c) i.address i.addressWidth) i.addressWidth.bytes w.bytes) ∨
  (∃ data : List Byte,
    r = .write c.devAddr (toDev (effOrder c) i.address i.addressWidth) i.addressWidth.bytes data.length data ∧
    data.length = (match i.width with | none => 0 | some w => w.bytes))

/-- From `s` to `u` the configuration stays and every request sent is one of `R`. -/
def SentOnly (R : Request → Prop) (s u : State) : Prop :=
  u.cfg = s.cfg ∧ ∃ sent, u.out = s.out ++ sent ∧ ∀ r ∈ requestsOf sent, R r

theorem SentOnly.emit {R : Request → Prop} {s u : State} (h : SentOnly R s u) {o : Output}
    (ho : ∀ r ∈ requestsOf [o], R r) : SentOnly R s (emit o u) := by
  obtain ⟨hcfg, sent, hout, hsent⟩ := h
  refine ⟨hcfg, sent ++ [o], by rw [emit_out, hout, List.append_assoc], ?_⟩
  rw [requestsOf_append]
  exact List.forall_mem_append.2 ⟨hsent, ho⟩

/-- The elementary moves send no request but those of `R`. -/
theorem sentOnly_closed (F : Word → Prop) (Q : Seq → Prop) (R : Request → Prop) (s : State) (a : Word) :
    Closed s.cfg a F Q R (SentOnly R s) (SentOnly R s) where
  cfg _ h := h.1
  request _ _ hr h := h.emit (by simpa [requestsOf] using hr)
  respond u _ h := SentOnly.emit (u := { u with seq := .idle }) h (by simp [requestsOf])
  take _ _ _ _ h := h
  rest _ _ _ _ h := h
  cache u v _ h := by simpa only [SentOnly, cache_cfg, cache_out] using h

/-- Settles O22: the requests of `TRead` and `TWrite` for the command's register have these fields, and the moves send
no other. -/
theorem requestsCarryAddressesAndWholeRegisters : Obligations.RequestsCarryAddressesAndWholeRegisters := by
  intro i s t h
  have hc := sentOnly_closed (fun _ => True) (fun _ => True) (RequestsRegisterOf s.cfg i) s i.address
  refine (exec_closed hc ?_ ?_ (fun _ _ _ _ _ => trivial) ⟨rfl, [], by simp [requestsOf]⟩ h).2
  · intro reg ha haw hw _
    have hread : RequestsRegisterOf s.cfg i (readRequest s.cfg reg) :=
      .inl ⟨reg.width, hw, by rw [readRequest, ha, haw]⟩
    have hwrite : ∀ v, RequestsRegisterOf s.cfg i
        (writeRequest s.cfg reg.address reg.addressWidth (toDev (effOrder s.cfg) v reg.width)) := fun v =>
      .inr ⟨toDev (effOrder s.cfg) v reg.width, by rw [writeRequest, ha, haw], by rw [hw, toDev_length]⟩
    exact ⟨hread, hwrite, fun _ => trivial, fun _ _ => ⟨trivial, trivial⟩, fun _ _ => trivial,
      fun _ _ _ _ _ _ => ⟨trivial, trivial⟩⟩
  · intro hw
    exact ⟨trivial, .inr ⟨[], rfl, by rw [hw]; rfl⟩⟩

end Sys2Proof.Machine
end

section
/-! PROOFS. A command and the answers of its transport (20_memory.md): where it rests with no answer at hand, that a
late answer ends it as one at hand would have, and that of a successful answer it uses the data alone. -/

namespace Sys2Proof.Machine

open Sys2Proof

/-! ### No answer at hand -/

/-- `WriteReg` with nothing at hand rests in T_WRITE, its request out (R126, R167). -/
theorem writeReg_silent {reg : Reg} {v : Word} {s : State} (hi : s.inputs = []) :
    writeReg reg v s = .next { s with seq := .tWrite (.register reg v), out := s.out ++ [writeOf s reg v] } := by
  rw [writeReg, awaitWrite, awaitAnswer_silent (by exact hi)]
  simp [emit, writeOf, writeRequest]

/-- `ReadReg` of a register without a populated slot, with nothing at hand, rests in T_READ, its request out (R125,
R167). -/
theorem readReg_silent {reg : Reg} {k : AfterRead} {s : State} (hi : s.inputs = []) (hh : s.hit reg.address = false) :
    readReg reg k s = .next { s with seq := .tRead reg k, out := s.out ++ [readOf s reg] } := by
  rw [readReg_miss hh, awaitRead, awaitAnswer_silent (by exact hi)]
  rfl

/-- A valid WRMSK whose masks merge: the merged value is written where the merged mask spans the register, and is
otherwise merged into the value read (R131). -/
theorem execWrmsk_merged {reg : Reg} {e : Entry} {es : List Entry} {mv : Word} {s : State}
    (hwf : (Instr.wrmsk reg (e :: es)).wf s.cfg = true) (hmv : mergeMasks (e :: es) = some mv) :
    execWrmsk reg (e :: es) s =
      if spans reg.width (mergedMask e.mask (es.map Entry.mask)) then writeReg reg mv s
      else readReg reg (.merge (mergedMask e.mask (es.map Entry.mask)) mv) s := by
  simp only [execWrmsk, whenValid_of_wf hwf, hmv]

/-- Settles O10: each valid command comes down to `WriteReg`, `ReadReg` or a bare write, at the wait for its answer. -/
theorem commandWithoutAnswerRestsWaiting : Obligations.CommandWithoutAnswerRestsWaiting := by
  intro s hi
  refine ⟨?_, ?_, ?_, ?_, ?_⟩
  · intro reg hwf hh
    exact (whenValid_of_wf hwf).trans (readReg_silent hi hh)
  · intro reg ms hwf hh
    exact (whenValid_of_wf hwf).trans (readReg_silent hi hh)
  · intro reg v hwf
    exact (whenValid_of_wf hwf).trans (writeReg_silent hi)
  · intro address aw hwf
    exact (whenValid_of_wf hwf).trans (awaitAnswer_silent (by exact hi))
  · intro reg e es mv hwf hmv m
    have hexec := execWrmsk_merged hwf hmv
    refine ⟨?_, ?_, ?_⟩
    · intro hsp
      rw [if_pos hsp] at hexec
      exact hexec.trans (writeReg_silent hi)
    · intro hsp hh
      rw [if_neg (ne_true_of_eq_false hsp)] at hexec
      exact hexec.trans (readReg_silent hi hh)
    · intro cur hsp hh hcur
      rw [if_neg (ne_true_of_eq_false hsp), readReg_hit hh hcur] at hexec
      exact hexec.trans (writeReg_silent hi)

/-! ### What every command is made of -/

/-- Every command is, where it is valid, a refusal, a query, `WriteReg`, a bare write or `ReadReg` (R127 to R134), so
that what these meanings have and `whenValid` keeps, every command has. -/
theorem exec_induction {C : (State → StepResult) → Prop} (i : Instr)
    (valid : ∀ f, C f → C fun s => whenValid i s (f s)) (refuse : ∀ r, C fun _ => .refused r)
    (query : ∀ g : Cfg → List Word, C fun s => .next (returnOk (g s.cfg) s))
    (write : ∀ reg v, C (writeReg reg v))
    (command : ∀ r : Cfg → Request, C fun s => awaitWrite .command (emit (.request (r s.cfg)) s))
    (read : ∀ reg k, C (readReg reg k)) : C (exec i) := by
  cases i with
  | rdreg reg => exact valid _ (read reg .whole)
  | wrreg reg v => exact valid _ (write reg v)
  | wrcmd a aw => exact valid _ (command fun c => writeRequest c a aw [])
  | rdmsk reg ms => exact valid _ (read reg (.fields ms))
  | wrmsk reg entries =>
    refine valid _ ?_
    cases entries with
    | nil => exact refuse _
    | cons e es =>
      dsimp only
      cases mergeMasks (e :: es) with
      | none => exact refuse _
      | some mv =>
        dsimp only
        cases spans reg.width (mergedMask e.mask (es.map Entry.mask)) with
        | true => exact write reg mv
        | false => exact read reg _
  | ismemo a aw w => exact valid _ (query fun c => [if isCacheable c (indexOf c a) then 1 else 0])

/-- A populated slot without a value is the fault (R14). -/
theorem readReg_empty {reg : Reg} {k : AfterRead} {s : State} (hh : s.hit reg.address = true)
    (hv : slotRead s (indexOf s.cfg reg.address) = none) : readReg reg k s = .fault .emptySlotRead := by
  simp only [State.hit] at hh
  simp only [readReg, hh, if_true, hv]

/-- The slot of `ReadReg`'s register, and no input, says which way it goes: the fault of an empty slot, the rest of the
command on the slot's value, or one read request (R125). -/
theorem readReg_cases (reg : Reg) (k : AfterRead) (s : State) :
    (∀ l, readReg reg k { s with inputs := l } = .fault .emptySlotRead) ∨
      (∃ v, ∀ l, readReg reg k { s with inputs := l } = afterRead reg k v { s with inputs := l }) ∨
      (∀ l, readReg reg k { s with inputs := l } =
        awaitRead reg k { emit (.request (readRequest s.cfg reg)) s with inputs := l }) := by
  cases hh : s.hit reg.address with
  | true =>
    cases hv : slotRead s (indexOf s.cfg reg.address) with
    | none => exact .inl fun l => readReg_empty (by exact hh) (by exact hv)
    | some v => exact .inr (.inl ⟨v, fun l => readReg_hit (by exact hh) (by exact hv)⟩)
  | false => exact .inr (.inr fun l => readReg_miss (by exact hh))

/-! ### A late answer -/

/-- A meaning that rests waiting can be resumed: with more inputs, the step from where it rests gives what the meaning
gives with those inputs after its own. -/
def Resumes (f : State → StepResult) : Prop :=
  ∀ (s t : State) (l : List Input), f s = .next t → t.seq ≠ .idle → l ≠ [] →
    phaseStep { t with inputs := l } = f { s with inputs := s.inputs ++ l }

/-- Nothing is to be resumed where the command has ended. -/
theorem resumes_of_ends_idle {f : State → StepResult} (h : ∀ s t, f s = .next t → t.seq = .idle) : Resumes f :=
  fun s t _ hf hseq => absurd (h s t hf) hseq

/-- A valid command's meaning is its pseudocode, before and after the wait. -/
theorem whenValid_resumes (i : Instr) {f : State → StepResult} (hf : Resumes f) :
    Resumes fun s => whenValid i s (f s) := by
  intro s t l h hseq hl
  obtain ⟨hwf, h⟩ := whenValid_next h
  exact (hf s t l h hseq hl).trans (whenValid_of_wf (by exact hwf)).symm

/-- Waiting for an answer resumes: with nothing at hand it rests in a phase `q` whose step is the same wait, and with
an answer at hand it goes on with `k`, which reads no phase and resumes. -/
theorem awaitAnswer_resumes {q : Seq} {k : Answer → State → StepResult}
    (hstep : ∀ s : State, s.seq = q → s.inputs ≠ [] → phaseStep s = awaitAnswer q k s)
    (hphase : ∀ a (s : State) q', k a { s with seq := q' } = k a s) (hk : ∀ a, Resumes (k a)) :
    Resumes (awaitAnswer q k) := by
  intro s t l h hseq hl
  rcases awaitAnswer_next h with ⟨hi, rfl⟩ | ⟨a, rest, hi, h⟩
  · rw [hstep { s with seq := q, inputs := l } rfl hl, hi]
    cases l with
    | nil => exact absurd rfl hl
    | cons x xs =>
      cases x with
      | answer a => exact hphase a { s with inputs := xs } q
      | present p => rfl
      | reset => rfl
  · rw [hk a _ t l h hseq hl, awaitAnswer_answer (a := a) (rest := rest ++ l) (by simp [hi])]

/-- The answer to a write ends the command (R126, R129). -/
theorem onWriteAnswer_ends_idle {job : WriteJob} {a : Answer} {s t : State} (h : onWriteAnswer job a s = .next t) :
    t.seq = .idle := by
  rw [onWriteAnswer_eq] at h
  cases job <;> (cases h; split_ifs <;> rfl)

/-- `cache` reads no phase. -/
theorem cache_withSeq (a v : Word) (s : State) (q : Seq) :
    cache a v { s with seq := q } = { cache a v s with seq := q } := by
  rw [cache_slotsHolding, cache_slotsHolding]
  rfl

theorem onWriteAnswer_withSeq (job : WriteJob) (a : Answer) (s : State) (q : Seq) :
    onWriteAnswer job a { s with seq := q } = onWriteAnswer job a s := by
  simp only [onWriteAnswer, cache_withSeq]
  rfl

/-- T_WRITE is the phase of this wait (R19). -/
theorem awaitWrite_resumes (job : WriteJob) : Resumes (awaitWrite job) := by
  refine awaitAnswer_resumes ?_ (onWriteAnswer_withSeq job)
    fun a => resumes_of_ends_idle fun _ _ => onWriteAnswer_ends_idle
  intro s hs hi
  simp only [phaseStep, hs, if_neg hi, awaitWrite]

theorem writeReg_resumes (reg : Reg) (v : Word) : Resumes (writeReg reg v) :=
  fun s => awaitWrite_resumes (.register reg v)
    (emit (.request (writeRequest s.cfg reg.address reg.addressWidth (toDev (effOrder s.cfg) v reg.width))) s)

theorem afterRead_resumes (reg : Reg) (k : AfterRead) (v : Word) : Resumes (afterRead reg k v) := by
  cases k with
  | whole => exact resumes_of_ends_idle fun _ _ h => by cases h; rfl
  | fields ms => exact resumes_of_ends_idle fun _ _ h => by cases h; rfl
  | merge m mv => exact writeReg_resumes reg _

/-- A wait reads no phase if what it goes on with reads none. -/
theorem awaitAnswer_withSeq {q : Seq} {k : Answer → State → StepResult}
    (hphase : ∀ a (s : State) q', k a { s with seq := q' } = k a s) (s : State) (q' : Seq) :
    awaitAnswer q k { s with seq := q' } = awaitAnswer q k s := by
  simp only [awaitAnswer]
  split
  · rfl
  · rename_i a rest _
    exact hphase a { s with inputs := rest } q'
  · rfl
  · rfl

theorem afterRead_withSeq (reg : Reg) (k : AfterRead) (v : Word) (s : State) (q : Seq) :
    afterRead reg k v { s with seq := q } = afterRead reg k v s := by
  cases k with
  | whole => rfl
  | fields ms => rfl
  | merge m mv => exact awaitAnswer_withSeq (onWriteAnswer_withSeq _) (emit _ s) q

theorem onReadAnswer_withSeq (reg : Reg) (k : AfterRead) (a : Answer) (s : State) (q : Seq) :
    onReadAnswer reg k a { s with seq := q } = onReadAnswer reg k a s := by
  simp only [onReadAnswer, cache_withSeq, afterRead_withSeq]
  rfl

/-- A failed read ends the command; a successful one goes on, and the slots it leaves do not depend on the inputs. -/
theorem onReadAnswer_resumes (reg : Reg) (k : AfterRead) (a : Answer) : Resumes (onReadAnswer reg k a) := by
  intro s t l h hseq hl
  by_cases hneg : a.signed s.cfg < 0
  · rw [onReadAnswer_failed hneg] at h
    cases h
    exact absurd rfl hseq
  · have hpos := not_lt.1 hneg
    rw [onReadAnswer_ok hpos] at h
    rw [afterRead_resumes reg k _ _ t l h hseq hl, onReadAnswer_ok (by exact hpos), cache_slotsHolding,
      cache_slotsHolding]
    rfl

/-- T_READ is the phase of this wait (R19). -/
theorem awaitRead_resumes (reg : Reg) (k : AfterRead) : Resumes (awaitRead reg k) := by
  refine awaitAnswer_resumes ?_ (onReadAnswer_withSeq reg k) (onReadAnswer_resumes reg k)
  intro s hs hi
  simp only [phaseStep, hs, if_neg hi, awaitRead]

theorem readReg_resumes (reg : Reg) (k : AfterRead) : Resumes (readReg reg k) := by
  intro s t l h hseq hl
  rcases readReg_cases reg k s with hf | ⟨v, hv⟩ | hmiss
  · rw [hf s.inputs] at h
    cases h
  · rw [hv s.inputs] at h
    rw [hv, afterRead_resumes reg k v s t l h hseq hl]
  · rw [hmiss s.inputs] at h
    rw [hmiss, awaitRead_resumes reg k _ t l h hseq hl]

/-- Every command that rests waiting resumes (R34, R42). -/
theorem exec_resumes (i : Instr) : Resumes (exec i) :=
  exec_induction i (fun _ hf => whenValid_resumes i hf)
    (refuse := fun _ => resumes_of_ends_idle fun _ _ h => by cases h)
    (query := fun _ => resumes_of_ends_idle fun _ _ h => by cases h; rfl)
    (write := writeReg_resumes)
    (command := fun r s => awaitWrite_resumes .command (emit (.request (r s.cfg)) s))
    (read := readReg_resumes)

/-- Settles O24: the command resumes, and its step is that of the phase it rests in, the configuration being valid. -/
theorem lateAnswerEndsCommandAlike : Obligations.LateAnswerEndsCommandAlike := by
  intro i s t a rest hv h hseq
  have hcfg : t.cfg = s.cfg := (commandFrame i s t h).1
  rw [step_valid (s := { t with inputs := .answer a :: rest }) ((congrArg validCfg hcfg).trans hv)]
  exact exec_resumes i s t _ h hseq (List.cons_ne_nil _ _)

/-! ### The sign of a status -/

/-- From any state where both answers are a success, the meaning has the same outcome with the one at hand as with the
other, if it reads the one at all. -/
def SameOutcome (a b : Answer) (f : State → StepResult) : Prop :=
  ∀ (s : State) (rest : List Input), a.succeeds s → b.succeeds s →
    (∀ t, f { s with inputs := .answer a :: rest } = .next t → t.inputs ≠ .answer a :: rest) →
      f { s with inputs := .answer a :: rest } = f { s with inputs := .answer b :: rest }

theorem whenValid_sameOutcome {a b : Answer} (i : Instr) {f : State → StepResult} (hf : SameOutcome a b f) :
    SameOutcome a b fun s => whenValid i s (f s) := by
  intro s rest ha hb hread
  by_cases hwf : i.wf s.cfg = true
  · simp only [whenValid, hwf, if_true] at hread ⊢
    exact hf s rest ha hb hread
  · simp [whenValid, hwf]

/-- A meaning that answers a next state and leaves its inputs as they are reads no answer. -/
theorem sameOutcome_of_unread {a b : Answer} {f : State → StepResult}
    (h : ∀ s, ∃ t, f s = .next t ∧ t.inputs = s.inputs) : SameOutcome a b f := by
  intro s rest _ _ hread
  obtain ⟨t, ht, hi⟩ := h { s with inputs := .answer a :: rest }
  exact absurd hi (hread t ht)

/-- Of a success the end of a write uses nothing (R33, R126, R129). -/
theorem awaitWrite_sameOutcome (a b : Answer) (job : WriteJob) : SameOutcome a b (awaitWrite job) := by
  intro s rest ha hb _
  have hsucc : ∀ x : Answer, x.succeeds s → ¬x.signed s.cfg < 0 := fun _ => not_lt.2
  simp only [awaitWrite, awaitAnswer, onWriteAnswer, hsucc a ha, hsucc b hb, if_false]

theorem writeReg_sameOutcome (a b : Answer) (reg : Reg) (v : Word) : SameOutcome a b (writeReg reg v) :=
  fun s => awaitWrite_sameOutcome a b (.register reg v)
    (emit (.request (writeRequest s.cfg reg.address reg.addressWidth (toDev (effOrder s.cfg) v reg.width))) s)

theorem afterRead_sameOutcome (a b : Answer) (reg : Reg) (k : AfterRead) (v : Word) :
    SameOutcome a b (afterRead reg k v) := by
  cases k with
  | whole => exact sameOutcome_of_unread fun _ => ⟨_, rfl, rfl⟩
  | fields ms => exact sameOutcome_of_unread fun _ => ⟨_, rfl, rfl⟩
  | merge m mv => exact writeReg_sameOutcome a b reg _

/-- Of a success the end of a read uses the data alone (R33, R125). -/
theorem awaitRead_sameOutcome {a b : Answer} (hdata : a.data = b.data) (reg : Reg) (k : AfterRead) :
    SameOutcome a b (awaitRead reg k) := by
  intro s rest ha hb _
  have hsucc : ∀ x : Answer, x.succeeds s → ¬x.signed s.cfg < 0 := fun _ => not_lt.2
  simp only [awaitRead, awaitAnswer, onReadAnswer, hsucc a ha, hsucc b hb, if_false, Answer.bytes, hdata]

theorem readReg_sameOutcome {a b : Answer} (hdata : a.data = b.data) (reg : Reg) (k : AfterRead) :
    SameOutcome a b (readReg reg k) := by
  intro s rest ha hb hread
  rcases readReg_cases reg k s with hf | ⟨v, hv⟩ | hmiss
  · rw [hf, hf]
  · rw [hv] at hread ⊢
    rw [hv]
    exact afterRead_sameOutcome a b reg k v s rest ha hb hread
  · rw [hmiss] at hread ⊢
    rw [hmiss]
    exact awaitRead_sameOutcome hdata reg k _ rest ha hb hread

/-- Settles O23: the ends of a read and of a write use the data of a success alone, and every command is made of
these. -/
theorem onlyTheSignOfASuccessMatters : Obligations.OnlyTheSignOfASuccessMatters := by
  intro i s a b rest hdata ha hb
  have hexec : SameOutcome a b (exec i) :=
    exec_induction i (fun _ hf => whenValid_sameOutcome i hf)
      (refuse := fun _ _ _ _ _ _ => rfl)
      (query := fun _ => sameOutcome_of_unread fun _ => ⟨_, rfl, rfl⟩)
      (write := writeReg_sameOutcome a b)
      (command := fun r s => awaitWrite_sameOutcome a b .command (emit (.request (r s.cfg)) s))
      (read := readReg_sameOutcome hdata)
  exact hexec s rest ha hb

end Sys2Proof.Machine
end

section
/-! PROOFS. Packets and commands (30_encoding.md): decode undoes encode, encode undoes decode, and what decode accepts
is well formed. -/

namespace Sys2Proof

open Sys2Proof.Machine

theorem wf_iff (cfg : Cfg) (i : Instr) :
    i.wf cfg = true ↔ i.countLegal cfg = true ∧ i.addressLegal = true ∧ i.masksLegal = true ∧
      i.valuesLegal = true ∧ i.shapeLegal cfg = true := by
  simp [Instr.wf, and_assoc]

/-- `MAX_MASKS` of a valid configuration (R5 of 00_scope.md). -/
theorem maxMasks_bounds {cfg : Cfg} (h : validCfg cfg = true) : 1 ≤ cfg.maxMasks ∧ cfg.maxMasks ≤ 15 := by
  simp only [validCfg, Bool.and_eq_true, decide_eq_true_eq] at h
  omega

/-! ### From the command to the packet and back -/

theorem checkOperands_of_wf {cfg : Cfg} {i : Instr} (h : i.wf cfg = true) :
    checkOperands cfg true i = .accept i := by
  obtain ⟨-, haddr, hmasks, hvals, hshape⟩ := wf_parts h
  simp [checkOperands, haddr, hmasks, hvals, hshape]

/-- A well-formed command's packet decodes to it, if its fields pass checks 1 to 6 and its words are clean and assemble
to the command (R60, R63). -/
theorem decode_encode_of_fields {cfg : Cfg} {i : Instr} (op : Opcode) (w : Option Width) (aw : Width) (nm : BitVec 4)
    (ops : List Word) (hp : encode i = ⟨controlWord op.field (widthField w) aw.field nm, ops⟩)
    (hw : op.widthOf (widthField w) = some w) (hn : op.countAllowed cfg nm = true)
    (hl : ops.length = op.operandWords nm) (hj : assemble op w aw ops = some i)
    (hclean : (op.maskWords ops).all maskWordClean = true) (hwf : i.wf cfg = true) :
    decode cfg (encode i) = .accept i := by
  rw [hp, decode_of_checks (op := op) (w := w) (aw := aw) (i := i), hclean, checkOperands_of_wf hwf]
  · rw [opc_controlWord, opcode_ofField_field]
  · exact rsv_controlWord ..
  · rwa [w_controlWord]
  · rw [aw_controlWord, width_ofField_field]
  · rwa [nm_controlWord]
  · rwa [nm_controlWord]
  · exact hj

/-- The field `NM` holds any legal number of masks (R51). -/
theorem nm_field_toNat {n maxMasks : Nat} (h15 : maxMasks ≤ 15) (h : n ≤ maxMasks) :
    (BitVec.ofNat 4 n).toNat = n := by
  rw [BitVec.toNat_ofNat]
  omega

/-- The fields of a mask word hold the bounds of any mask of a register (R52). -/
theorem mask_bounds_lt_64 {w : Width} {m : Mask} (h : m.valid w = true) : m.hi < 64 ∧ m.lo < 64 := by
  have hhi := mask_hi_lt_64 h
  have hlo := ((mask_valid_iff w m).1 h).1
  omega

theorem mask_words_clean (ms : List Mask) : (ms.map Mask.word).all maskWordClean = true := by
  simp [mask_word_clean]

/-- Settles O1: each command's packet has the fields and the words of its opcode, and the mask words give the masks
back because a valid mask fits their fields. -/
theorem encodedCommandDecodesToItself : Obligations.EncodedCommandDecodesToItself := by
  intro cfg i hcfg hwf
  have h15 := (maxMasks_bounds hcfg).2
  obtain ⟨hcount, -, hmasks, -, -⟩ := wf_parts hwf
  cases i with
  | rdreg reg =>
    exact decode_encode_of_fields .rdreg (some reg.width) reg.addressWidth 0 [reg.address] rfl
      (widthOf_widthField_some (by decide) _) rfl rfl rfl rfl hwf
  | wrreg reg v =>
    exact decode_encode_of_fields .wrreg (some reg.width) reg.addressWidth 0 [reg.address, v] rfl
      (widthOf_widthField_some (by decide) _) rfl rfl rfl rfl hwf
  | wrcmd a aw => exact decode_encode_of_fields .wrcmd none aw 0 [a] rfl rfl rfl rfl rfl rfl hwf
  | rdmsk reg ms =>
    simp only [Instr.countLegal, Bool.and_eq_true, decide_eq_true_eq] at hcount
    simp only [Instr.masksLegal, List.all_eq_true] at hmasks
    have hn := nm_field_toNat h15 hcount.2
    refine decode_encode_of_fields .rdmsk (some reg.width) _ _ _ rfl (widthOf_widthField_some (by decide) _) ?_ ?_ ?_
      (mask_words_clean ms) hwf
    · simp [Opcode.countAllowed, hn, hcount]
    · simp [Opcode.operandWords, hn, Nat.add_comm]
    · simp only [assemble, masks_roundtrip ms fun m hm => mask_bounds_lt_64 (hmasks m hm)]
  | wrmsk reg es =>
    simp only [Instr.countLegal, Bool.and_eq_true, decide_eq_true_eq] at hcount
    simp only [Instr.masksLegal, List.all_eq_true] at hmasks
    have hn := nm_field_toNat h15 hcount.2
    refine decode_encode_of_fields .wrmsk (some reg.width) _ _ _ rfl (widthOf_widthField_some (by decide) _) ?_ ?_ ?_
      (evenWords_clean es) hwf
    · simp [Opcode.countAllowed, hn, hcount]
    · simp [Opcode.operandWords, hn, wordsOfEntries_length, Nat.add_comm]
    · simp only [assemble, entries_roundtrip es fun e he => mask_bounds_lt_64 (hmasks e he)]
  | ismemo a aw w =>
    have hw : Opcode.ismemo.widthOf (widthField w) = some w := by
      cases w with
      | none => rfl
      | some w => exact widthOf_widthField_some (by decide) w
    exact decode_encode_of_fields .ismemo w aw 0 [a] rfl hw rfl rfl rfl rfl hwf

/-! ### From the packet to the command and back -/

/-- An opcode without masks allows no `NM` but 0 (R54). -/
theorem nm_eq_zero {op : Opcode} {cfg : Cfg} {nm : BitVec 4} (h : op.countAllowed cfg nm = true) (h1 : op ≠ .rdmsk)
    (h2 : op ≠ .wrmsk) : nm = 0 := by
  cases op
  case rdmsk => exact absurd rfl h1
  case wrmsk => exact absurd rfl h2
  all_goals exact of_decide_eq_true h

/-- A packet whose fields pass checks 1 to 4 is the packet of what they mean, its `NM` and its words (R51). -/
theorem packet_of_fields {p : Packet} {op : Opcode} {w : Option Width} {aw : Width}
    (hop : Opcode.ofField p.opc = some op) (hr : p.rsv = 0) (hw : op.widthOf p.w = some w)
    (haw : Width.ofField p.aw = some aw) :
    (⟨controlWord op.field (widthField w) aw.field p.nm, p.ops⟩ : Packet) = p := by
  rw [opcode_field_of hop, widthOf_field_of hw, width_field_of haw, controlWord_of_fields p hr]

theorem ofNat_eq_nm {n : Nat} {nm : BitVec 4} (h : n = nm.toNat) : BitVec.ofNat 4 n = nm := by
  rw [h, BitVec.ofNat_toNat, BitVec.setWidth_eq]

/-- Format M has `NM` words after `ADDR` (R53). -/
theorem rdmsk_words_length {a : Word} {ms : List Word} {nm : BitVec 4}
    (h : (a :: ms).length = Opcode.rdmsk.operandWords nm) : ms.length = nm.toNat := by
  simp only [Opcode.operandWords, List.length_cons] at h
  omega

/-- Format MV has `NM` pairs of words after `ADDR` (R53). -/
theorem wrmsk_words_length {a : Word} {ws : List Word} {nm : BitVec 4}
    (h : (a :: ws).length = Opcode.wrmsk.operandWords nm) : ws.length = 2 * nm.toNat := by
  simp only [Opcode.operandWords, List.length_cons] at h
  omega

theorem entriesOfWords_length_of_pairs {ws : List Word} {n : Nat} (h : ws.length = 2 * n) :
    (entriesOfWords ws).length = n := by
  have hpairs := entriesOfWords_length ws (by omega)
  omega

/-- Settles O2: an accepted packet is made of its fields and its words, and the words are those of the assembled
command because no mask word sets a reserved bit. -/
theorem acceptedPacketIsItsCommandsEncoding : Obligations.AcceptedPacketIsItsCommandsEncoding := by
  intro cfg p i h
  obtain ⟨op, w, aw, hop, hr, hw, haw, hn, hl, hj, hclean, -⟩ := decode_accept h
  rw [← packet_of_fields hop hr hw haw]
  rcases assemble_cases hj with ⟨wd, a, rfl, rfl, hops, rfl⟩ | ⟨wd, a, v, rfl, rfl, hops, rfl⟩ |
    ⟨a, rfl, rfl, hops, rfl⟩ | ⟨wd, a, ms, rfl, rfl, hops, rfl⟩ | ⟨wd, a, ws, rfl, rfl, hops, rfl⟩ |
    ⟨a, rfl, hops, rfl⟩ <;> rw [hops] at hl hclean ⊢
  · rw [nm_eq_zero hn nofun nofun]; rfl
  · rw [nm_eq_zero hn nofun nofun]; rfl
  · rw [nm_eq_zero hn nofun nofun]; rfl
  · simp only [encode, masks_words_roundtrip ms hclean, List.length_map, ofNat_eq_nm (rdmsk_words_length hl)]
    rfl
  · have hlen := wrmsk_words_length hl
    simp only [encode, words_roundtrip ws (by omega) hclean, ofNat_eq_nm (entriesOfWords_length_of_pairs hlen)]
    rfl
  · rw [nm_eq_zero hn nofun nofun]; rfl

/-- A command assembled from a packet of the right length has no masks, or has `NM` of them, from the words of format M
or MV (R53, R63). -/
theorem assemble_masks {op : Opcode} {w : Option Width} {aw : Width} {ops : List Word} {nm : BitVec 4} {i : Instr}
    (hj : assemble op w aw ops = some i) (hl : ops.length = op.operandWords nm) :
    (¬(op = .rdmsk ∨ op = .wrmsk) ∧ op.maskWords ops = [] ∧ i.masksLegal = true ∧ ∀ cfg, i.countLegal cfg = true) ∨
    (∃ wd a ms, op = .rdmsk ∧ w = some wd ∧ ops = a :: ms ∧ ms.length = nm.toNat ∧
      i = .rdmsk ⟨a, aw, wd⟩ (ms.map Mask.ofWord)) ∨
    (∃ wd a ws, op = .wrmsk ∧ w = some wd ∧ ops = a :: ws ∧ ws.length = 2 * nm.toNat ∧
      i = .wrmsk ⟨a, aw, wd⟩ (entriesOfWords ws)) := by
  rcases assemble_cases hj with ⟨_, _, rfl, -, -, rfl⟩ | ⟨_, _, _, rfl, -, -, rfl⟩ | ⟨_, rfl, -, -, rfl⟩ |
    ⟨wd, a, ms, rfl, rfl, rfl, rfl⟩ | ⟨wd, a, ws, rfl, rfl, rfl, rfl⟩ | ⟨_, rfl, -, rfl⟩
  · exact .inl ⟨by decide, rfl, rfl, fun _ => rfl⟩
  · exact .inl ⟨by decide, rfl, rfl, fun _ => rfl⟩
  · exact .inl ⟨by decide, rfl, rfl, fun _ => rfl⟩
  · exact .inr (.inl ⟨wd, a, ms, rfl, rfl, rfl, rdmsk_words_length hl, rfl⟩)
  · exact .inr (.inr ⟨wd, a, ws, rfl, rfl, rfl, wrmsk_words_length hl, rfl⟩)
  · exact .inl ⟨by decide, rfl, rfl, fun _ => rfl⟩

/-- A command assembled from a packet that passes checks 5 and 6 has a legal number of masks (R60). -/
theorem assembled_countLegal {cfg : Cfg} {op : Opcode} {w : Option Width} {aw : Width} {ops : List Word}
    {nm : BitVec 4} {i : Instr} (hj : assemble op w aw ops = some i) (hl : ops.length = op.operandWords nm)
    (hn : op.countAllowed cfg nm = true) : i.countLegal cfg = true := by
  rcases assemble_masks hj hl with ⟨-, -, -, hcount⟩ | ⟨wd, a, ms, rfl, -, -, hlen, rfl⟩ |
    ⟨wd, a, ws, rfl, -, -, hlen, rfl⟩
  · exact hcount cfg
  · rwa [Instr.countLegal, List.length_map, hlen]
  · rwa [Instr.countLegal, entriesOfWords_length_of_pairs hlen]

/-- Settles O3: checks 7 to 10 are on the command itself, and check 5 is on its number of masks by check 6. -/
theorem acceptedCommandIsWellFormed : Obligations.AcceptedCommandIsWellFormed := by
  intro cfg p i h
  obtain ⟨op, w, aw, -, -, -, -, hn, hl, hj, -, haddr, hmasks, hvals, hshape⟩ := decode_accept h
  exact (wf_iff cfg i).2 ⟨assembled_countLegal hj hl hn, haddr, hmasks, hvals, hshape⟩

/-- Settles O4, by running the decoder on the six packets. -/
theorem handWrittenPacketsDecode : Obligations.HandWrittenPacketsDecode := by
  refine ⟨?_, ?_, ?_, ?_, ?_, ?_⟩ <;> decide

end Sys2Proof
end

section
/-! PROOFS. The decoder against the table of R60 of 30_encoding.md: what each check of the decoder says of the bits of
the packet, and that the decoder names the first check that fails. -/

namespace Sys2Proof.Machine

open Sys2Proof

/-! ### The fields of the control word as numbers -/

theorem cwField_eq (p : Packet) (lo n : Nat) : cwField p lo n = (p.cw.extractLsb' lo n).toNat := by
  rw [cwField, BitVec.extractLsb'_toNat, Nat.shiftRight_eq_div_pow]

theorem cwField_opc (p : Packet) : cwField p 28 4 = p.opc.toNat := cwField_eq p 28 4
theorem cwField_w (p : Packet) : cwField p 24 4 = p.w.toNat := cwField_eq p 24 4
theorem cwField_aw (p : Packet) : cwField p 20 4 = p.aw.toNat := cwField_eq p 20 4
theorem cwField_nm (p : Packet) : cwField p 16 4 = p.nm.toNat := cwField_eq p 16 4
theorem cwField_rsv (p : Packet) : cwField p 0 16 = p.rsv.toNat := cwField_eq p 0 16

theorem toNat_of_opcode {b : BitVec 4} {op : Opcode} (h : Opcode.ofField b = some op) :
    b.toNat = op.field.toNat := by
  rw [opcode_field_of h]

theorem toNat_of_width {b : BitVec 4} {w : Width} (h : Width.ofField b = some w) : b.toNat = w.bytes := by
  rw [← width_field_of h]
  cases w <;> rfl

/-- A register width in bytes, 0 for a command register. -/
def widthBytes : Option Width → Nat
  | none => 0
  | some w => w.bytes

theorem toNat_of_widthOf {op : Opcode} {b : BitVec 4} {w : Option Width} (h : op.widthOf b = some w) :
    b.toNat = widthBytes w := by
  rw [← widthOf_field_of h]
  rcases w with _ | w
  · rfl
  · cases w <;> rfl

theorem bytes_eq_widthBytes_iff (a : Width) (w : Option Width) : a.bytes = widthBytes w ↔ some a = w := by
  rcases w with _ | w
  · cases a <;> decide
  · cases a <;> cases w <;> decide

/-! ### Checks 1 to 6 -/

theorem badOpcode_iff (cfg : Cfg) (p : Packet) : checkFails cfg p .badOpcode ↔ Opcode.ofField p.opc = none := by
  simp only [checkFails, cwField_opc]
  generalize p.opc = b
  revert b
  decide

theorem badReserved_iff (cfg : Cfg) (p : Packet) : checkFails cfg p .badReserved ↔ ¬p.rsv = 0#16 := by
  simp only [checkFails, cwField_rsv, ne_eq, BitVec.toNat_eq, BitVec.toNat_ofNat, Nat.zero_mod]

theorem badWidth_iff (cfg : Cfg) {p : Packet} {op : Opcode} (hop : Opcode.ofField p.opc = some op) :
    checkFails cfg p .badWidth ↔ op.widthOf p.w = none := by
  simp only [checkFails, cwField_opc, cwField_w, toNat_of_opcode hop, widthAllowed]
  generalize p.w = b
  revert b
  cases op <;> decide

theorem badAddrWidth_iff (cfg : Cfg) (p : Packet) :
    checkFails cfg p .badAddrWidth ↔ Width.ofField p.aw = none := by
  simp only [checkFails, cwField_aw]
  generalize p.aw = b
  revert b
  decide

theorem carriesMasks_iff {p : Packet} {op : Opcode} (hop : Opcode.ofField p.opc = some op) :
    carriesMasks p ↔ op = .rdmsk ∨ op = .wrmsk := by
  simp only [carriesMasks, cwField_opc, toNat_of_opcode hop]
  cases op <;> decide

theorem badNm_iff (cfg : Cfg) {p : Packet} {op : Opcode} (hop : Opcode.ofField p.opc = some op) :
    checkFails cfg p .badNm ↔ op.countAllowed cfg p.nm = false := by
  simp only [checkFails, carriesMasks_iff hop, cwField_nm]
  cases op
  case rdmsk | wrmsk => simp [Opcode.countAllowed, Bool.and_eq_false_iff, -Bool.and_eq_false_imp]
  all_goals simp [Opcode.countAllowed, BitVec.toNat_eq]

theorem badLength_iff (cfg : Cfg) {p : Packet} {op : Opcode} (hop : Opcode.ofField p.opc = some op) :
    checkFails cfg p .badLength ↔ ¬p.ops.length = op.operandWords p.nm := by
  simp only [checkFails, cwField_opc, cwField_nm, toNat_of_opcode hop]
  cases op <;> rfl

/-! ### Checks 7 and 10, on the register -/

section Assembled

variable {cfg : Cfg} {p : Packet} {op : Opcode} {w : Option Width} {aw : Width} {i : Instr}

/-- The address, the address width and the width of an assembled command are the packet's (R63). -/
theorem assembled_register {ops : List Word} (h : assemble op w aw ops = some i) :
    i.address = ops.getD 0 0 ∧ i.addressWidth = aw ∧ i.width = w := by
  rcases assemble_cases h with ⟨_, _, -, rfl, rfl, rfl⟩ | ⟨_, _, _, -, rfl, rfl, rfl⟩ | ⟨_, -, rfl, rfl, rfl⟩ |
    ⟨_, _, _, -, rfl, rfl, rfl⟩ | ⟨_, _, _, -, rfl, rfl, rfl⟩ | ⟨_, -, rfl, rfl⟩ <;> exact ⟨rfl, rfl, rfl⟩

theorem addrRange_iff (haw : Width.ofField p.aw = some aw) (hj : assemble op w aw p.ops = some i) :
    checkFails cfg p .addrRange ↔ i.addressLegal = false := by
  obtain ⟨ha, hiaw, -⟩ := assembled_register hj
  simp only [checkFails, cwField_aw, toNat_of_width haw, addrWord, ← ha, ← hiaw, Instr.addressLegal, addressFits,
    decide_eq_false_iff_not, not_lt]

theorem memoMismatch_iff (hw : op.widthOf p.w = some w) (haw : Width.ofField p.aw = some aw)
    (hj : assemble op w aw p.ops = some i) : checkFails cfg p .memoMismatch ↔ i.shapeLegal cfg = false := by
  obtain ⟨ha, hiaw, hiw⟩ := assembled_register hj
  have hshape : ∀ m : Reg, (m.addressWidth.bytes ≠ aw.bytes ∨ m.width.bytes ≠ widthBytes w) ↔
      ¬(m.addressWidth = aw ∧ some m.width = w) := by
    intro m
    have hbytes := bytes_eq_widthBytes_iff m.addressWidth (some aw)
    rw [Option.some_inj] at hbytes
    rw [← hbytes, ← bytes_eq_widthBytes_iff, not_and_or, widthBytes]
  simp only [checkFails, cwField_aw, toNat_of_width haw, cwField_w, toNat_of_widthOf hw, addrWord, ← ha,
    Instr.shapeLegal, shapeMatches, hiaw, hiw, List.all_eq_false, hshape, ← BitVec.toNat_eq]
  simp

/-! ### Mask words as numbers -/

/-- What check 8 says against a mask word, as a number, on a register of `bytes` bytes: it sets a reserved bit, or its
bounds are the wrong way round, or they leave the register. -/
def maskWordFails (bytes x : Nat) : Prop :=
  x ≠ x / 2 ^ 8 % 2 ^ 6 * 2 ^ 8 + x % 2 ^ 6 ∨ x / 2 ^ 8 % 2 ^ 6 < x % 2 ^ 6 ∨ 8 * bytes ≤ x / 2 ^ 8 % 2 ^ 6

theorem mask_ofWord_hi (mw : Word) : (Mask.ofWord mw).hi = mw.toNat / 2 ^ 8 % 2 ^ 6 := by
  rw [Mask.ofWord, BitVec.extractLsb'_toNat, Nat.shiftRight_eq_div_pow]

theorem mask_ofWord_lo (mw : Word) : (Mask.ofWord mw).lo = mw.toNat % 2 ^ 6 := by
  simp [Mask.ofWord]

/-- A mask word as a number (R52). -/
theorem mask_word_toNat {m : Mask} (hhi : m.hi < 64) (hlo : m.lo < 64) : m.word.toNat = m.hi * 2 ^ 8 + m.lo := by
  have hshift : m.hi % 2 ^ 6 % 2 ^ 64 * 2 ^ 8 % 2 ^ 64 = m.hi <<< 8 := by rw [Nat.shiftLeft_eq]; omega
  have hlow : m.lo % 2 ^ 6 % 2 ^ 64 = m.lo := by omega
  have h8 : m.lo < 2 ^ 8 := by omega
  simp only [Mask.word, BitVec.toNat_or, BitVec.toNat_shiftLeft, BitVec.toNat_setWidth, BitVec.toNat_ofNat,
    Nat.shiftLeft_eq]
  rw [hshift, hlow, ← Nat.shiftLeft_add_eq_or_of_lt h8, Nat.shiftLeft_eq]

/-- A mask word sets no reserved bit exactly if its two fields are all of it (R52, R61). -/
theorem maskWordClean_iff (mw : Word) :
    maskWordClean mw = true ↔ mw.toNat = (Mask.ofWord mw).hi * 2 ^ 8 + (Mask.ofWord mw).lo := by
  have hword : (Mask.ofWord mw).word.toNat = (Mask.ofWord mw).hi * 2 ^ 8 + (Mask.ofWord mw).lo :=
    mask_word_toNat (BitVec.isLt _) (BitVec.isLt _)
  rw [← hword, ← BitVec.toNat_eq]
  constructor
  · exact fun h => (mask_word_ofWord h).symm
  · intro h
    rw [h]
    exact mask_word_clean _

theorem maskWordFails_iff (w : Width) (mw : Word) :
    maskWordFails w.bytes mw.toNat ↔ ¬(maskWordClean mw = true ∧ (Mask.ofWord mw).valid w = true) := by
  rw [maskWordClean_iff, mask_valid_iff, mask_ofWord_hi, mask_ofWord_lo, maskWordFails]
  omega

/-- Check 8 of the decoder on a list of mask words. -/
theorem maskWords_illegal_iff (w : Width) (l : List Word) :
    (l.all maskWordClean && (l.map Mask.ofWord).all (Mask.valid w)) = false ↔
      ∃ x ∈ l.map BitVec.toNat, maskWordFails w.bytes x := by
  simp only [List.mem_map, exists_exists_and_eq_and, maskWordFails_iff, ← Bool.not_eq_true, Bool.and_eq_true,
    List.all_map, List.all_eq_true, ← forall₂_and, Function.comp_apply, not_forall, exists_prop]

/-! ### The operand words by their places -/

theorem eq_map_getD (ws : List Word) : ws = (List.range ws.length).map fun k => ws.getD k 0 := by
  apply List.ext_getElem
  · simp
  · intro k hk _
    simp [hk]

theorem getD_one_add (a : Word) (ws : List Word) (k : Nat) : (a :: ws).getD (1 + k) 0 = ws.getD k 0 := by
  rw [Nat.add_comm, List.getD_cons_succ]

/-- The mask words of format MV stand at every second place (R53). -/
theorem evenWords_eq {n : Nat} {ws : List Word} (h : ws.length = 2 * n) :
    evenWords ws = (List.range n).map fun k => ws.getD (2 * k) 0 := by
  induction n generalizing ws with
  | zero => rw [List.length_eq_zero_iff.1 h]; rfl
  | succ n ih =>
    match ws, h with
    | mw :: fv :: rest, h =>
      have hrest : rest.length = 2 * n := by simp only [List.length_cons] at h; omega
      rw [evenWords, ih hrest, List.range_succ_eq_map, List.map_cons, List.map_map]
      rfl

/-- The pairs of format MV by their places (R53). -/
theorem entriesOfWords_eq {n : Nat} {ws : List Word} (h : ws.length = 2 * n) :
    entriesOfWords ws =
      (List.range n).map fun k => ⟨Mask.ofWord (ws.getD (2 * k) 0), ws.getD (2 * k + 1) 0⟩ := by
  induction n generalizing ws with
  | zero => rw [List.length_eq_zero_iff.1 h]; rfl
  | succ n ih =>
    match ws, h with
    | mw :: fv :: rest, h =>
      have hrest : rest.length = 2 * n := by simp only [List.length_cons] at h; omega
      rw [entriesOfWords, ih hrest, List.range_succ_eq_map, List.map_cons, List.map_map]
      rfl

theorem masks_of_entriesOfWords {n : Nat} {ws : List Word} (h : ws.length = 2 * n) :
    (entriesOfWords ws).map Entry.mask = (evenWords ws).map Mask.ofWord := by
  rw [entriesOfWords_eq h, evenWords_eq h, List.map_map, List.map_map]
  rfl

theorem mwWord_rdmsk (hop : Opcode.ofField p.opc = some .rdmsk) (k : Nat) :
    mwWord p k = (p.ops.getD (1 + k) 0).toNat := by
  simp only [mwWord, cwField_opc, toNat_of_opcode hop]
  rfl

theorem mwWord_wrmsk (hop : Opcode.ofField p.opc = some .wrmsk) (k : Nat) :
    mwWord p k = (p.ops.getD (1 + 2 * k) 0).toNat := by
  simp only [mwWord, cwField_opc, toNat_of_opcode hop]
  rfl

/-- The words after `ADDR` in format M are `MW_1, ..., MW_n` (R53). -/
theorem mwWords_rdmsk {a : Word} {ms : List Word} (hop : Opcode.ofField p.opc = some .rdmsk) (hops : p.ops = a :: ms)
    (hlen : ms.length = p.nm.toNat) : ms.map BitVec.toNat = (List.range p.nm.toNat).map (mwWord p) := by
  simp only [funext (mwWord_rdmsk hop), hops, getD_one_add, ← hlen]
  conv_lhs => rw [eq_map_getD ms, List.map_map]
  rfl

/-- Every second word after `ADDR` in format MV is one of `MW_1, ..., MW_n` (R53). -/
theorem mwWords_wrmsk {a : Word} {ws : List Word} (hop : Opcode.ofField p.opc = some .wrmsk) (hops : p.ops = a :: ws)
    (hlen : ws.length = 2 * p.nm.toNat) :
    (evenWords ws).map BitVec.toNat = (List.range p.nm.toNat).map (mwWord p) := by
  simp only [funext (mwWord_wrmsk hop), hops, getD_one_add, evenWords_eq hlen, List.map_map]
  rfl

/-! ### Checks 8 and 9, on the masks and the values -/

theorem maskRange_iff (hop : Opcode.ofField p.opc = some op) (hw : op.widthOf p.w = some w)
    (hl : p.ops.length = op.operandWords p.nm) (hj : assemble op w aw p.ops = some i) :
    checkFails cfg p .maskRange ↔ ((op.maskWords p.ops).all maskWordClean && i.masksLegal) = false := by
  have hfails : checkFails cfg p .maskRange ↔ (op = .rdmsk ∨ op = .wrmsk) ∧
      ∃ x ∈ (List.range p.nm.toNat).map (mwWord p), maskWordFails (widthBytes w) x := by
    simp only [checkFails, carriesMasks_iff hop, cwField_nm, cwField_w, toNat_of_widthOf hw, List.mem_map,
      exists_exists_and_eq_and, List.mem_range]
    rfl
  rw [hfails]
  rcases assemble_masks hj hl with ⟨hnone, hwords, hlegal, -⟩ | ⟨wd, a, ms, rfl, rfl, hops, hlen, rfl⟩ |
    ⟨wd, a, ws, rfl, rfl, hops, hlen, rfl⟩
  · simp [hnone, hwords, hlegal]
  · rw [← mwWords_rdmsk hop hops hlen, widthBytes, ← maskWords_illegal_iff, hops]
    simp [Opcode.maskWords, Instr.masksLegal]
  · rw [← mwWords_wrmsk hop hops hlen, widthBytes, ← maskWords_illegal_iff, hops, ← masks_of_entriesOfWords hlen,
      List.all_map]
    simp [Opcode.maskWords, Instr.masksLegal, Function.comp_def]

theorem valueRange_iff (hop : Opcode.ofField p.opc = some op) (hw : op.widthOf p.w = some w)
    (hl : p.ops.length = op.operandWords p.nm) (hj : assemble op w aw p.ops = some i) :
    checkFails cfg p .valueRange ↔ i.valuesLegal = false := by
  simp only [checkFails, cwField_opc, toNat_of_opcode hop, cwField_nm, cwField_w, toNat_of_widthOf hw]
  rcases assemble_cases hj with ⟨_, _, rfl, rfl, -, rfl⟩ | ⟨_, _, _, rfl, rfl, hops, rfl⟩ | ⟨_, rfl, rfl, -, rfl⟩ |
    ⟨_, _, _, rfl, rfl, -, rfl⟩ | ⟨wd, a, ws, rfl, rfl, hops, rfl⟩ | ⟨_, rfl, -, rfl⟩
  · simp [Opcode.field, Instr.valuesLegal]
  · simp [Opcode.field, Instr.valuesLegal, hops, valueFits, widthBytes]
  · simp [Opcode.field, Instr.valuesLegal]
  · simp [Opcode.field, Instr.valuesLegal]
  · have hlen := wrmsk_words_length (hops ▸ hl)
    have hfv : ∀ k, (a :: ws).getD (2 + 2 * k) 0 = ws.getD (2 * k + 1) 0 := fun k => by
      rw [show 2 + 2 * k = 1 + (2 * k + 1) by omega, getD_one_add]
    simp only [Instr.valuesLegal, entriesOfWords_eq hlen, mwHi, mwLo, mwWord_wrmsk hop, fvWord, hops, List.all_map,
      List.all_eq_false, List.mem_range, Function.comp_apply, entry_fits_iff, mask_ofWord_hi, mask_ofWord_lo, not_lt,
      getD_one_add, hfv]
    simp [Opcode.field]
  · simp [Opcode.field, Instr.valuesLegal]

end Assembled

/-! ### The first check that fails -/

/-- None of the checks before number `n` fails. -/
def NoneFailsBefore (cfg : Cfg) (p : Packet) (n : Nat) : Prop := ∀ e : DeclError, e.code < n → ¬checkFails cfg p e

theorem code_injective {e e' : DeclError} (h : e.code = e'.code) : e = e' := by
  revert h
  cases e <;> cases e' <;> decide

theorem code_bounds (e : DeclError) : 1 ≤ e.code ∧ e.code ≤ 10 := by cases e <;> decide

theorem NoneFailsBefore.next {cfg : Cfg} {p : Packet} {e : DeclError} (h : NoneFailsBefore cfg p e.code)
    (he : ¬checkFails cfg p e) : NoneFailsBefore cfg p (e.code + 1) := by
  intro e' hlt
  rcases Nat.lt_succ_iff_lt_or_eq.1 hlt with hlt | heq
  · exact h e' hlt
  · rwa [code_injective heq]

/-- At most one check is the first to fail. -/
theorem first_failing_unique {cfg : Cfg} {p : Packet} {e e' : DeclError} (h : checkFails cfg p e)
    (hb : NoneFailsBefore cfg p e.code) (h' : checkFails cfg p e') (hb' : NoneFailsBefore cfg p e'.code) :
    e = e' := by
  rcases Nat.lt_trichotomy e.code e'.code with hlt | heq | hgt
  · exact absurd h (hb' e hlt)
  · exact code_injective heq
  · exact absurd h' (hb e' hgt)

/-- An answer of the decoder is the table's: a rejection names the first check that fails, an acceptance means that none
fails (R60, R165). -/
def AnswersTable (cfg : Cfg) (p : Packet) : Decoded → Prop
  | .reject e => checkFails cfg p e ∧ NoneFailsBefore cfg p e.code
  | .accept _ => ∀ e, ¬checkFails cfg p e

/-- A check made in its turn keeps the answer the table's. -/
theorem answersTable_ite {cfg : Cfg} {p : Packet} {e : DeclError} {c : Prop} [Decidable c] {d : Decoded}
    (hc : checkFails cfg p e ↔ c) (hb : NoneFailsBefore cfg p e.code)
    (hd : NoneFailsBefore cfg p (e.code + 1) → AnswersTable cfg p d) :
    AnswersTable cfg p (if c then .reject e else d) := by
  split_ifs with h
  · exact ⟨hc.2 h, hb⟩
  · exact hd (hb.next (mt hc.1 h))

/-- The decoder's answer is the table's, check by check in its order (R60). -/
theorem answersTable_decode (cfg : Cfg) (p : Packet) : AnswersTable cfg p (decode cfg p) := by
  have h1 : NoneFailsBefore cfg p DeclError.badOpcode.code := fun e he => absurd (code_bounds e).1 (not_le.2 he)
  cases hop : Opcode.ofField p.opc with
  | none => rw [decode_badOpcode hop]; exact ⟨(badOpcode_iff cfg p).2 hop, h1⟩
  | some op =>
  have h2 := h1.next (by simp [badOpcode_iff, hop])
  by_cases hr : p.rsv = 0#16
  swap
  · rw [decode_badReserved hop hr]; exact ⟨(badReserved_iff cfg p).2 hr, h2⟩
  have h3 := h2.next (e := .badReserved) (by simp [badReserved_iff, hr])
  cases hw : op.widthOf p.w with
  | none => rw [decode_badWidth hop hr hw]; exact ⟨(badWidth_iff cfg hop).2 hw, h3⟩
  | some w =>
  have h4 := h3.next (e := .badWidth) (by simp [badWidth_iff cfg hop, hw])
  cases haw : Width.ofField p.aw with
  | none => rw [decode_badAddrWidth hop hr hw haw]; exact ⟨(badAddrWidth_iff cfg p).2 haw, h4⟩
  | some aw =>
  have h5 := h4.next (e := .badAddrWidth) (by simp [badAddrWidth_iff, haw])
  cases hn : op.countAllowed cfg p.nm with
  | false => rw [decode_badNm hop hr hw haw hn]; exact ⟨(badNm_iff cfg hop).2 hn, h5⟩
  | true =>
  have h6 := h5.next (e := .badNm) (by simp [badNm_iff cfg hop, hn])
  by_cases hl : p.ops.length = op.operandWords p.nm
  swap
  · rw [decode_badLength hop hr hw haw hn hl]; exact ⟨(badLength_iff cfg hop).2 hl, h6⟩
  have h7 := h6.next (e := .badLength) (by simp [badLength_iff cfg hop, hl])
  obtain ⟨i, hj⟩ := assemble_isSome aw hw hl
  rw [decode_of_checks hop hr hw haw hn hl hj]
  refine answersTable_ite (addrRange_iff haw hj) h7 fun h8 => ?_
  refine answersTable_ite (maskRange_iff hop hw hl hj) h8 fun h9 => ?_
  refine answersTable_ite (valueRange_iff hop hw hl hj) h9 fun h10 => ?_
  refine answersTable_ite (memoMismatch_iff hw haw hj) h10 fun h11 => ?_
  exact fun e => h11 e (Nat.lt_succ_of_le (code_bounds e).2)

/-- Settles O5: the decoder's answer is the table's, and at most one check is the first to fail. -/
theorem rejectionNamesFirstFailingCheck : Obligations.RejectionNamesFirstFailingCheck := by
  intro cfg p
  have h := answersTable_decode cfg p
  cases hd : decode cfg p with
  | accept i =>
    rw [hd] at h
    exact ⟨fun e => ⟨nofun, fun he => absurd he.1 (h e)⟩, fun _ => h, fun _ => ⟨i, rfl⟩⟩
  | reject e₀ =>
    rw [hd] at h
    obtain ⟨hfails, hbefore⟩ := h
    refine ⟨fun e => ⟨?_, ?_⟩, nofun, fun hnone => absurd hfails (hnone e₀)⟩
    · rintro ⟨⟩
      exact ⟨hfails, hbefore⟩
    · rintro ⟨he, hbe⟩
      rw [first_failing_unique hfails hbefore he hbe]

end Sys2Proof.Machine
end

section
/-! PROOFS. Responses (30_encoding.md R56 to R58, R67): the fields of a response packet, the response to a rejected
packet, and that a command gets one response. -/

namespace Sys2Proof.Machine

open Sys2Proof

/-! ### The fields of a response packet -/

/-- Bit `i` of a response word (R56). -/
theorem responseWord_bit (k : BitVec 2) (n i : Nat) :
    (responseWord k n).getLsbD i =
      if i < 26 then false else if i < 30 then (BitVec.ofNat 4 n).getLsbD (i - 26) else k.getLsbD (i - 30) := by
  simp only [responseWord, BitVec.getLsbD_append, BitVec.getLsbD_zero, show i - 26 < 4 ↔ i < 30 by omega,
    show i - 26 - 4 = i - 30 by omega]

theorem responseWord_kind (k : BitVec 2) (n : Nat) : (responseWord k n).extractLsb' 30 2 = k := by
  apply BitVec.eq_of_getLsbD_eq
  intro i hi
  rw [BitVec.getLsbD_extractLsb', responseWord_bit]
  simp [hi, show ¬(30 + i < 26) by omega]

theorem responseWord_count (k : BitVec 2) (n : Nat) : (responseWord k n).extractLsb' 26 4 = BitVec.ofNat 4 n := by
  apply BitVec.eq_of_getLsbD_eq
  intro i hi
  rw [BitVec.getLsbD_extractLsb', responseWord_bit]
  simp [hi, show 26 + i < 30 by omega]

theorem responseWord_rest (k : BitVec 2) (n : Nat) : (responseWord k n).extractLsb' 0 26 = 0 := by
  apply BitVec.eq_of_getLsbD_eq
  intro i hi
  rw [BitVec.getLsbD_extractLsb', responseWord_bit]
  simp [hi]

/-- A status within 64 bits is what its sign extension says (R57). -/
theorem sext64_toInt {status : Int} (h1 : -(2 ^ 63) ≤ status) (h2 : status < 2 ^ 63) :
    (sext64 status).toInt = status := by
  rw [sext64, if_pos ⟨h1, h2⟩, BitVec.toInt_ofInt]
  exact Int.bmod_eq_of_le (by omega) (by omega)

/-- Settles O19. -/
theorem responsePacketFields : Obligations.ResponsePacketFields := by
  refine ⟨?_, ?_, ?_⟩
  · intro values h15
    have hcount : (BitVec.ofNat 4 values.length).toNat = values.length := nm_field_toNat le_rfl h15
    exact ⟨responseWord_kind _ _, by rw [Result.packet, responseWord_count, hcount], responseWord_rest _ _, rfl, rfl⟩
  · intro status h1 h2
    exact ⟨rfl, sext64_toInt h1 h2, rfl⟩
  · intro e
    exact ⟨rfl, by cases e <;> rfl, rfl⟩

/-! ### A rejected packet -/

/-- A packet that decode rejects is answered with the reason (R67, R162). -/
theorem runPacket_reject {p : Packet} {s : State} {e : DeclError} (h : decode s.cfg p = .reject e) :
    runPacket p s = .next (rejectDecl e s) := by
  simp only [runPacket, h]

/-- Settles O6: the step latches the packet and answers it with the reason. -/
theorem rejectedPacketChangesNothing : Obligations.RejectedPacketChangesNothing := by
  intro s p rest e hv hs hi hd
  rw [step_present hv hs hi, runPacket_reject (by exact hd)]
  simp only [rejectDecl, respond, emit, latch, hs]
  rfl

/-! ### One response -/

@[simp] theorem responsesOf_append (l m : List Output) : responsesOf (l ++ m) = responsesOf l ++ responsesOf m := by
  induction l with
  | nil => rfl
  | cons o l ih => cases o <;> simp [responsesOf, ih]

/-- After the responses `rs` the block has given one more if it is IDLE, and none if it is not (R56). -/
def AnsweredOnce (rs : List ResponsePacket) (t : State) : Prop :=
  (t.seq = .idle → ∃ r, responsesOf t.out = rs ++ [r]) ∧ (t.seq ≠ .idle → responsesOf t.out = rs)

theorem not_waitingPhase_idle : ¬waitingPhase .idle := by
  rintro (h | h) <;> cases h

/-- Of the elementary moves only the last, responding, gives a response. -/
theorem answeredOnce_closed (s : State) (a : Word) :
    Closed s.cfg a (fun _ => True) waitingPhase (fun _ => True)
      (fun u => u.cfg = s.cfg ∧ responsesOf u.out = responsesOf s.out) (AnsweredOnce (responsesOf s.out)) where
  cfg _ h := h.1
  request u r _ h := ⟨h.1, by simp [h.2, responsesOf]⟩
  respond u r h := ⟨fun _ => ⟨r.packet, by simp [h.2, responsesOf]⟩, fun hne => absurd rfl hne⟩
  take _ _ _ _ h := h
  rest u q _ hq h :=
    ⟨fun hidle => absurd (show waitingPhase .idle from hidle ▸ hq) not_waitingPhase_idle, fun _ => h.2⟩
  cache u v _ h := ⟨(cache_cfg a v u).trans h.1, by rw [cache_out]; exact h.2⟩

/-- Settles O20: the command in progress, or the one presented, has given no response before it ends. -/
theorem eachCommandGetsOneResponse : Obligations.EachCommandGetsOneResponse := by
  intro s t hcommand h
  have hpresented : s.seq = .idle → ∃ p rest, s.inputs = .present p :: rest := fun hs =>
    hcommand.resolve_left (not_not.2 hs)
  refine step_closed (answeredOnce_closed s) ?_ (fun _ _ _ _ => ⟨rfl, rfl⟩) ?_ (fun _ => ⟨rfl, rfl⟩) h
  · intro hs hi
    obtain ⟨p, rest, hp⟩ := hpresented hs
    cases hi.symm.trans hp
  · intro l hs hi
    obtain ⟨p, rest, hp⟩ := hpresented hs
    cases hi.symm.trans hp

end Sys2Proof.Machine
end

section
/-! PROOFS. The pseudo-operations (30_encoding.md R65): a WRMSK of the whole register is a WRREG. -/

namespace Sys2Proof.Machine

open Sys2Proof

/-- The mask of every bit of a register (R72 of 40_bitfield.md). -/
def wholeMask (w : Width) : Mask := ⟨8 * w.bytes - 1, 0⟩

theorem wholeMask_spans (w : Width) : spans w (wholeMask w) = true := by
  simp [spans, wholeMask]

theorem wholeMask_valid (w : Width) : (wholeMask w).valid w = true := by
  have hpos := bytes_pos w
  simp only [mask_valid_iff, wholeMask]
  omega

/-- A value fits the field of the whole register exactly if it fits the register. -/
theorem entry_wholeMask_fits (w : Width) (v : Word) : (Entry.mk (wholeMask w) v).fits = valueFits v w := by
  have hpos := bytes_pos w
  have hbits : 8 * w.bytes - 1 - 0 + 1 = 8 * w.bytes := by omega
  simp only [Entry.fits, valueFits, wholeMask, hbits]

theorem mergeMasks_wholeMask (w : Width) (v : Word) : mergeMasks [⟨wholeMask w, v⟩] = some v := by
  simp [mergeMasks, pairwiseDisjoint, orOfShifted, shiftIn, wholeMask]

theorem writeMask_wholeMask_wf {cfg : Cfg} {reg : Reg} {v : Word} (hv : validCfg cfg = true)
    (hwf : (Instr.wrreg reg v).wf cfg = true) : (Instr.writeMask reg (wholeMask reg.width) v).wf cfg = true := by
  obtain ⟨-, haddr, -, hvals, hshape⟩ := wf_parts hwf
  refine (wf_iff _ _).2 ⟨?_, haddr, ?_, ?_, hshape⟩
  · simp [Instr.writeMask, Instr.countLegal, (maxMasks_bounds hv).1]
  · simp [Instr.writeMask, Instr.masksLegal, wholeMask_valid]
  · simpa [Instr.writeMask, Instr.valuesLegal, entry_wholeMask_fits] using hvals

/-- Settles O52: the one mask spans the register, so the WRMSK writes its merged value, which is the value, with no
read. -/
theorem wholeRegisterMaskWriteIsRegisterWrite : Obligations.WholeRegisterMaskWriteIsRegisterWrite := by
  intro s reg v hv hwf
  have hmask := writeMask_wholeMask_wf hv hwf
  refine ⟨hmask, ?_⟩
  calc exec (Instr.writeMask reg (wholeMask reg.width) v) s
      = writeReg reg v s :=
        (execWrmsk_merged hmask (mergeMasks_wholeMask reg.width v)).trans (if_pos (wholeMask_spans reg.width))
    _ = exec (.wrreg reg v) s := (whenValid_of_wf hwf).symm

end Sys2Proof.Machine
end

section
/-! PROOFS. The bit-field unit (40_bitfield.md): the two masks and the shifts, the merge of one field into a register
value, and the merge of several fields. -/

namespace Sys2Proof.Machine

open Sys2Proof

/-! ### The bit mask and the spanning mask -/

/-- The difference of R71 is below `2^64`, so narrowing it to a word loses nothing. -/
theorem bitmask_toNat {w : Width} {m : Mask} (h : m.valid w = true) :
    (bitmask m).toNat = 2 ^ (m.hi + 1) - 2 ^ m.lo := by
  have hle : 2 ^ (m.hi + 1) ≤ 2 ^ 64 := Nat.pow_le_pow_right (by decide) (mask_hi_lt_64 h)
  have hpos : 0 < 2 ^ m.lo := Nat.two_pow_pos m.lo
  rw [bitmask, BitVec.toNat_ofNat, Nat.mod_eq_of_lt (by omega)]

/-- Settles O25, from the number and the bits of a bit mask. -/
theorem bitmaskCoversExactlyItsField : Obligations.BitmaskCoversExactlyItsField := by
  intro w m h
  obtain ⟨hlo, -⟩ := (mask_valid_iff w m).1 h
  have hle : 2 ^ m.lo ≤ 2 ^ (m.hi + 1) := Nat.pow_le_pow_right (by decide) (by omega)
  refine ⟨?_, bitmask_lt_backing h, bitmask_bit h⟩
  rw [bitmask_toNat h, Nat.cast_sub hle]
  norm_cast

theorem spans_iff (w : Width) (m : Mask) : spans w m = true ↔ m.lo = 0 ∧ m.hi = 8 * w.bytes - 1 := by
  simp [spans]

/-- Settles O34: the first and the last register bit fix the ends of a mask that has every bit. -/
theorem spanningMaskCoversTheRegister : Obligations.SpanningMaskCoversTheRegister := by
  intro w m h
  obtain ⟨-, hhi⟩ := (mask_valid_iff w m).1 h
  have hpos := bytes_pos w
  refine ⟨spans_iff w m, (spans_iff w m).trans ⟨?_, ?_⟩⟩
  · rintro ⟨hlo, hend⟩ b hb
    omega
  · intro hall
    have hfirst := hall 0 (by omega)
    have hlast := hall (8 * w.bytes - 1) (by omega)
    omega

/-! ### The shifts -/

/-- Inside its range, a field value moved into place has the field's bits (R73). -/
theorem shiftIn_bit_inside {w : Width} {m : Mask} (h : m.valid w = true) (v : Word) {j : Nat}
    (hj : m.lo ≤ j ∧ j ≤ m.hi) : (shiftIn m v).getLsbD j = v.getLsbD (j - m.lo) := by
  have h64 : j < 64 := Nat.lt_of_le_of_lt hj.2 (mask_hi_lt_64 h)
  rw [shiftIn_bit]
  simp [h64, hj.1]

/-- An extracted field is the number in bits `hi` to `lo` (R74). -/
theorem shiftOut_toNat {w : Width} {m : Mask} (h : m.valid w = true) (r : Word) :
    (shiftOut m r).toNat = r.toNat / 2 ^ m.lo % 2 ^ (m.hi - m.lo + 1) := by
  apply Nat.eq_of_testBit_eq
  intro j
  rw [Nat.testBit_mod_two_pow, Nat.testBit_div_two_pow]
  simpa [BitVec.getLsbD, Nat.lt_succ_iff, Nat.add_comm] using shiftOut_bit h r j

/-- An extracted field is confined to the field's width (R74). -/
theorem shiftOut_lt {w : Width} {m : Mask} (h : m.valid w = true) (r : Word) :
    (shiftOut m r).toNat < 2 ^ (m.hi - m.lo + 1) := by
  rw [shiftOut_toNat h]
  exact Nat.mod_lt _ (Nat.two_pow_pos _)

/-- Settles O26, from the number of an extracted field and its bound. -/
theorem shiftOutExtractsTheField : Obligations.ShiftOutExtractsTheField := by
  intro w m r h
  exact ⟨rfl, shiftOut_toNat h r, shiftOut_lt h r⟩

/-- A register value that has a confined value's bits in a mask's range yields that value (R74). -/
theorem shiftOut_eq_of_bits {w : Width} {m : Mask} (h : m.valid w = true) {r v : Word}
    (hv : v.toNat < 2 ^ (m.hi - m.lo + 1))
    (hbits : ∀ j, m.lo ≤ j ∧ j ≤ m.hi → r.getLsbD j = v.getLsbD (j - m.lo)) : shiftOut m r = v := by
  obtain ⟨hlo, -⟩ := (mask_valid_iff w m).1 h
  apply BitVec.eq_of_getLsbD_eq
  intro j _
  rw [shiftOut_bit h]
  by_cases hj : j ≤ m.hi - m.lo
  · simp [hj, hbits (m.lo + j) (by omega)]
  · simp [hj, (toNat_lt_iff_bits v _).1 hv j (by omega)]

/-- Moving an extracted field back into place leaves the register's bits of the range (R75). -/
theorem shiftIn_shiftOut {w : Width} {m : Mask} (h : m.valid w = true) (r : Word) :
    shiftIn m (shiftOut m r) = r &&& bitmask m := by
  obtain ⟨hlo, -⟩ := (mask_valid_iff w m).1 h
  apply BitVec.eq_of_getLsbD_eq
  intro j _
  rw [BitVec.getLsbD_and, bitmask_bit h]
  by_cases hj : m.lo ≤ j ∧ j ≤ m.hi
  · have hfield : j - m.lo ≤ m.hi - m.lo := by omega
    simp [shiftIn_bit_inside h _ hj, shiftOut_bit h, hj, hfield]
  · rw [shiftIn_bit_outside hlo (shiftOut_lt h r) hj, ← Bool.decide_and, decide_eq_false hj, Bool.and_false]

/-- Settles O27, each direction bit by bit. -/
theorem shiftsAreInverse : Obligations.ShiftsAreInverse := by
  intro w m h
  exact ⟨fun v hv => shiftOut_eq_of_bits h hv fun _ hj => shiftIn_bit_inside h v hj, shiftIn_shiftOut h⟩

/-! ### The merge of one field -/

/-- Bit `j` of a value merged into an original of the backing width, the value having no bit outside the range (R77). -/
theorem applyShifted_bit {w : Width} {m : Mask} (h : m.valid w = true) {original shifted : Word}
    (ho : original.toNat < 2 ^ backingBits w)
    (hs : ∀ j, ¬(m.lo ≤ j ∧ j ≤ m.hi) → shifted.getLsbD j = false) (j : Nat) :
    (applyShifted w m original shifted).getLsbD j =
      (if m.lo ≤ j ∧ j ≤ m.hi then shifted.getLsbD j else original.getLsbD j) := by
  rw [applyShifted, BitVec.getLsbD_or, keep_bit h]
  by_cases hj : m.lo ≤ j ∧ j ≤ m.hi
  · simp [hj]
  · rw [if_neg hj, hs j hj, ← Bool.decide_and, decide_eq_false hj]
    by_cases hb : j < backingBits w
    · simp [hb]
    · simp [hb, (toNat_lt_iff_bits original _).1 ho j (by omega)]

/-- R76 is R77 on the shifted-in value. -/
theorem applyShifted_shiftIn (w : Width) (m : Mask) (original v : Word) :
    applyShifted w m original (shiftIn m v) = applyMask w m original v := rfl

/-- Settles O29, from the bits of a merged value. -/
theorem applyShiftedReplacesTheRange : Obligations.ApplyShiftedReplacesTheRange := by
  intro w m original shifted h ho hs
  exact ⟨applyShifted_bit h ho hs, applyShifted_shiftIn w m original⟩

/-- Settles O28: it is R77 on the shifted-in value, which has the field's bits inside the range and none outside. -/
theorem applyMaskReplacesExactlyTheField : Obligations.ApplyMaskReplacesExactlyTheField := by
  intro w m original newField h ho hn j
  obtain ⟨hlo, -⟩ := (mask_valid_iff w m).1 h
  rw [← applyShifted_shiftIn, applyShifted_bit h ho fun _ hj => shiftIn_bit_outside hlo hn hj]
  split_ifs with hj
  · exact shiftIn_bit_inside h newField hj
  · rfl

/-! ### The merge of several fields -/

/-- Settles O30: in an entry's range the merged value has the field's bits, and in no entry's range it has none. -/
theorem mergedValueHoldsEveryField : Obligations.MergedValueHoldsEveryField := by
  intro w entries mv hall hmv
  obtain ⟨hd, rfl⟩ := mergeMasks_some hmv
  have hv : ∀ e ∈ entries, e.mask.valid w = true := fun e he => (hall e he).1
  have hf : ∀ e ∈ entries, e.fits = true := fun e he => (hall e he).2
  refine ⟨fun e he => ?_, fun _ hj => orOfShifted_bit_outside hv hf hj⟩
  exact shiftOut_eq_of_bits (hv e he) ((entry_fits_iff e).1 (hf e he))
    fun _ hj => orOfShifted_bit_inside hv hf hd he hj.1 hj.2

/-- One mask lies wholly below the other. -/
def Apart (a b : Mask) : Prop := a.hi < b.lo ∨ b.hi < a.lo

theorem Apart.symm {a b : Mask} (h : Apart a b) : Apart b a := Or.symm h

/-- Valid masks are apart exactly if they share no bit; the higher `lo` is shared where they are not. -/
theorem not_apart_iff {w : Width} {a b : Mask} (ha : a.valid w = true) (hb : b.valid w = true) :
    ¬Apart a b ↔ ∃ j, (a.lo ≤ j ∧ j ≤ a.hi) ∧ (b.lo ≤ j ∧ j ≤ b.hi) := by
  obtain ⟨halo, -⟩ := (mask_valid_iff w a).1 ha
  obtain ⟨hblo, -⟩ := (mask_valid_iff w b).1 hb
  unfold Apart
  constructor
  · intro h
    exact ⟨max a.lo b.lo, by omega, by omega⟩
  · rintro ⟨j, hja, hjb⟩
    omega

theorem pairwiseDisjoint_iff (ms : List Mask) : pairwiseDisjoint ms = true ↔ ms.Pairwise Apart := by
  induction ms with
  | nil => simp [pairwiseDisjoint]
  | cons m ms ih => rw [pairwiseDisjoint_cons, ih, List.pairwise_cons]; rfl

theorem pairwiseDisjoint_perm {ms ms' : List Mask} (h : ms.Perm ms') :
    pairwiseDisjoint ms = pairwiseDisjoint ms' := by
  rw [Bool.eq_iff_iff, pairwiseDisjoint_iff, pairwiseDisjoint_iff]
  exact h.pairwise_iff Apart.symm

theorem orOfShifted_perm {es es' : List Entry} (h : es.Perm es') : orOfShifted es = orOfShifted es' := by
  apply BitVec.eq_of_getLsbD_eq
  intro j _
  rw [orOfShifted_bit, orOfShifted_bit, h.any_eq]

/-- Settles O31: neither the test for disjointness nor the OR depends on the order. -/
theorem mergeOrderDoesNotMatter : Obligations.MergeOrderDoesNotMatter := by
  intro es es' h
  simp only [mergeMasks, pairwiseDisjoint_perm (h.map Entry.mask), orOfShifted_perm h]

theorem mergeMasks_none_iff (es : List Entry) :
    mergeMasks es = none ↔ ¬(es.Pairwise fun x y => Apart x.mask y.mask) := by
  rw [← List.pairwise_map, ← pairwiseDisjoint_iff]
  simp [mergeMasks]

/-- Settles O32: some two entries are not apart, which for valid masks is to share a bit. -/
theorem overlapHasNoMergedValue : Obligations.OverlapHasNoMergedValue := by
  intro w es hv
  rw [mergeMasks_none_iff, List.pairwise_iff_getElem]
  constructor
  · intro h
    push Not at h
    obtain ⟨j, k, hj, hk, hjk, hnot⟩ := h
    obtain ⟨b, hx, hy⟩ := (not_apart_iff (hv _ (List.getElem_mem hj)) (hv _ (List.getElem_mem hk))).1 hnot
    exact ⟨j, k, b, es[j], es[k], hjk, List.getElem?_eq_getElem hj, List.getElem?_eq_getElem hk, hx, hy⟩
  · rintro ⟨j, k, b, x, y, hjk, hj, hk, hx, hy⟩ hall
    obtain ⟨hjl, rfl⟩ := List.getElem?_eq_some_iff.1 hj
    obtain ⟨hkl, rfl⟩ := List.getElem?_eq_some_iff.1 hk
    exact (not_apart_iff (hv _ (List.getElem_mem hjl)) (hv _ (List.getElem_mem hkl))).2 ⟨b, hx, hy⟩
      (hall j k hjl hkl hjk)

/-- What a join takes from one of its two masks, the merged mask takes from one of all the masks. -/
theorem mergedMask_attained (f : Mask → Nat) (hf : ∀ a b, f (maskJoin a b) = f a ∨ f (maskJoin a b) = f b)
    (m : Mask) (ms : List Mask) : ∃ n ∈ m :: ms, f n = f (mergedMask m ms) := by
  refine List.foldlRecOn (motive := fun k => ∃ n ∈ m :: ms, f n = f k) ms maskJoin ⟨m, by simp, rfl⟩ ?_
  rintro k ⟨n, hn, hnk⟩ a ha
  rcases hf k a with h | h
  · exact ⟨n, hn, hnk.trans h.symm⟩
  · exact ⟨a, List.mem_cons_of_mem m ha, h.symm⟩

/-- Settles O33: the merged mask bounds every mask, and each of its ends is some mask's. -/
theorem mergedMaskIsTheLeastRange : Obligations.MergedMaskIsTheLeastRange := by
  intro w m ms hv
  obtain ⟨hm, hms⟩ := List.forall_mem_cons.1 hv
  obtain ⟨hhi, hlo, hrest⟩ := mergedMask_bounds m ms
  exact ⟨mergedMask_valid hm hms, List.forall_mem_cons.2 ⟨⟨hhi, hlo⟩, hrest⟩,
    mergedMask_attained Mask.hi (fun a b => max_choice a.hi b.hi) m ms,
    mergedMask_attained Mask.lo (fun a b => min_choice a.lo b.lo) m ms⟩

end Sys2Proof.Machine
end

section
/-! PROOFS. The Endian Normalizer (41_endian.md): the irregular width as a case of the regular one, the big order as
the reverse of the little one, and that the host's order matters for the native device order alone. -/

namespace Sys2Proof.Machine

open Sys2Proof

/-! ### The two orders and the irregular width -/

/-- A byte list in the order `e` as a list with the least significant byte first, and back (R92, R95). -/
def leastFirst (e : Endian) (d : List Byte) : List Byte :=
  match e with
  | .little => d
  | .big => d.reverse

@[simp] theorem leastFirst_leastFirst (e : Endian) (d : List Byte) : leastFirst e (leastFirst e d) = d := by
  cases e with
  | little => rfl
  | big => exact List.reverse_reverse d

@[simp] theorem leastFirst_length (e : Endian) (d : List Byte) : (leastFirst e d).length = d.length := by
  cases e with
  | little => rfl
  | big => exact List.length_reverse

/-- The irregular width sends the bytes that the general rule would (R92, R93). -/
theorem toDev_eq_littleBytes (e : Endian) (v : Word) (w : Width) :
    toDev e v w = leastFirst e (littleBytes w.bytes v) := by
  have hregular : toDev e v w = toDevRegular e w.bytes v := by
    cases w
    case w3 => cases e <;> rfl
    all_goals rfl
  rw [hregular]
  cases e with
  | little => rfl
  | big => exact List.reverse_eq_iff.1 (bigBytes_reverse w.bytes v)

/-- At most eight bytes make a number that fits a word. -/
theorem littleSum_lt_word {d : List Byte} (hd : d.length ≤ 8) : littleSum d < 2 ^ 64 :=
  (littleSum_lt d).trans_le (Nat.pow_le_pow_right (by decide) (by omega))

/-- A 3-byte concatenation is the sum of the general rule (R94, R95). -/
theorem toLocal3_eq_toLocalRegular (e : Endian) (d0 d1 d2 : Byte) :
    toLocal3 e [d0, d1, d2] = toLocalRegular e [d0, d1, d2] := by
  apply BitVec.eq_of_toNat_eq
  cases e <;>
    simp only [toLocal3, toLocalRegular, List.getD_cons_zero, List.getD_cons_succ, List.reverse_cons, List.reverse_nil,
      List.nil_append, List.cons_append, concat3_toNat, littleSum, BitVec.toNat_ofNat] <;>
    omega

/-- On `W` bytes the irregular width reads what the general rule would (R94, R95). -/
theorem toLocal_eq_littleSum (e : Endian) {d : List Byte} {w : Width} (hd : d.length = w.bytes) :
    toLocal e d w = BitVec.ofNat 64 (littleSum (leastFirst e d)) := by
  have hregular : toLocal e d w = toLocalRegular e d := by
    cases w
    case w3 =>
      obtain ⟨d0, d1, d2, rfl⟩ := List.length_eq_three.1 hd
      exact toLocal3_eq_toLocalRegular e d0 d1 d2
    all_goals rfl
  rw [hregular]
  cases e <;> rfl

theorem toLocal_toNat (e : Endian) {d : List Byte} {w : Width} (hd : d.length = w.bytes) :
    (toLocal e d w).toNat = littleSum (leastFirst e d) := by
  have hfits : littleSum (leastFirst e d) < 2 ^ 64 := littleSum_lt_word (by simpa [hd] using bytes_le_eight w)
  rw [toLocal_eq_littleSum e hd, BitVec.toNat_ofNat, Nat.mod_eq_of_lt hfits]

/-! ### The conversions -/

theorem littleBytes_length (n : Nat) (v : Word) : (littleBytes n v).length = n := by
  simp [littleBytes]

theorem littleBytes_getElem? {n i : Nat} (v : Word) (hi : i < n) :
    (littleBytes n v)[i]? = some (v.extractLsb' (8 * i) 8) := by
  simp [littleBytes, hi, byteOf]

/-- Settles O35: byte `i` in big order is byte `W-1-i` in little order. -/
theorem deviceBytesInEachOrder : Obligations.DeviceBytesInEachOrder := by
  intro w v
  refine ⟨toDev_length _ v w, toDev_length _ v w, fun i hi => ?_⟩
  simp only [toDev_eq_littleBytes, leastFirst]
  constructor
  · exact littleBytes_getElem? v hi
  · rw [List.getElem?_reverse (by rwa [littleBytes_length]), littleBytes_length]
    exact littleBytes_getElem? v (by omega)

/-- Settles O36: reordering is its own inverse, and in little order taking bytes and summing them undo each other. -/
theorem endianConversionsRoundTrip : Obligations.EndianConversionsRoundTrip := by
  intro e w
  constructor
  · intro v
    rw [toLocal_toNat e (toDev_length e v w), toDev_eq_littleBytes, leastFirst_leastFirst, littleSum_bytes]
  · intro d hd
    have hlength : (leastFirst e d).length = w.bytes := (leastFirst_length e d).trans hd
    rw [toLocal_eq_littleSum e hd, toDev_eq_littleBytes, ← hlength,
      littleBytes_sum _ (hlength ▸ bytes_le_eight w), leastFirst_leastFirst]

/-- Settles O37: the sum of the general rule on three bytes, and its bound. -/
theorem irregularWidthReadsThreeBytes : Obligations.IrregularWidthReadsThreeBytes := by
  intro d0 d1 d2
  refine ⟨?_, ?_, fun e => toLocal3_lt e _⟩
  · rw [toLocal_toNat .little (w := .w3) rfl]
    simp only [leastFirst, littleSum]
    omega
  · rw [toLocal_toNat .big (w := .w3) rfl]
    simp only [leastFirst, List.reverse_cons, List.reverse_nil, List.nil_append, List.cons_append, littleSum]
    omega

/-! ### The host's order -/

/-- For a device order that is not native, `f` does the same where the host order is `h` (R99). -/
def IgnoresHost (h : Endian) (f : State → StepResult) : Prop :=
  ∀ s : State, s.cfg.order ≠ .native → f (withHost h s) = mapNext (withHost h) (f s)

/-- Only a native order stands for the host's (R91). -/
theorem effOrder_withHost {h : Endian} {s : State} (hn : s.cfg.order ≠ .native) :
    effOrder (withHost h s).cfg = effOrder s.cfg := by
  cases ho : s.cfg.order with
  | native => exact absurd ho hn
  | little => simp [effOrder, withHost, ho]
  | big => simp [effOrder, withHost, ho]

theorem cache_withHost (h : Endian) (a v : Word) (s : State) :
    cache a v (withHost h s) = withHost h (cache a v s) := by
  rw [cache_slotsHolding, cache_slotsHolding]
  rfl

theorem readRequest_withHost {h : Endian} {s : State} (hn : s.cfg.order ≠ .native) (reg : Reg) :
    readRequest (withHost h s).cfg reg = readRequest s.cfg reg := by
  simp only [readRequest, effOrder_withHost hn]
  rfl

theorem writeRequest_withHost {h : Endian} {s : State} (hn : s.cfg.order ≠ .native) (address : Word) (aw : Width)
    (bytes : List Byte) : writeRequest (withHost h s).cfg address aw bytes = writeRequest s.cfg address aw bytes := by
  simp only [writeRequest, effOrder_withHost hn]
  rfl

theorem awaitAnswer_ignoresHost {h : Endian} {q : Seq} {k : Answer → State → StepResult}
    (hk : ∀ a, IgnoresHost h (k a)) : IgnoresHost h (awaitAnswer q k) := by
  intro s hn
  cases hi : s.inputs with
  | nil => rw [awaitAnswer_silent hi, awaitAnswer_silent (by exact hi)]; rfl
  | cons x rest =>
    cases x with
    | present p => rw [awaitAnswer_present hi, awaitAnswer_present (by exact hi)]; rfl
    | reset => rw [awaitAnswer_reset hi, awaitAnswer_reset (by exact hi)]; rfl
    | answer a =>
      rw [awaitAnswer_answer hi, awaitAnswer_answer (by exact hi)]
      exact hk a { s with inputs := rest } hn

theorem onWriteAnswer_ignoresHost (h : Endian) (job : WriteJob) (a : Answer) :
    IgnoresHost h (onWriteAnswer job a) := by
  intro s _
  have hsigned : a.signed (withHost h s).cfg = a.signed s.cfg := rfl
  rw [onWriteAnswer_eq, onWriteAnswer_eq, hsigned]
  split_ifs
  · rfl
  · cases job with
    | register reg v => simp only [cache_withHost]; rfl
    | command => rfl

theorem awaitWrite_ignoresHost (h : Endian) (job : WriteJob) : IgnoresHost h (awaitWrite job) :=
  awaitAnswer_ignoresHost (onWriteAnswer_ignoresHost h job)

theorem writeReg_ignoresHost (h : Endian) (reg : Reg) (v : Word) : IgnoresHost h (writeReg reg v) := by
  intro s hn
  rw [writeReg, effOrder_withHost hn, writeRequest_withHost hn]
  exact awaitWrite_ignoresHost h _ (emit _ s) hn

theorem afterRead_ignoresHost (h : Endian) (reg : Reg) (k : AfterRead) (v : Word) :
    IgnoresHost h (afterRead reg k v) := by
  cases k with
  | whole => exact fun _ _ => rfl
  | fields masks => exact fun _ _ => rfl
  | merge m mv => exact writeReg_ignoresHost h reg _

theorem onReadAnswer_ignoresHost (h : Endian) (reg : Reg) (k : AfterRead) (a : Answer) :
    IgnoresHost h (onReadAnswer reg k a) := by
  intro s hn
  rcases lt_or_ge (a.signed s.cfg) 0 with hneg | hok
  · rw [onReadAnswer_failed hneg, onReadAnswer_failed (by exact hneg)]
    rfl
  · rw [onReadAnswer_ok hok, onReadAnswer_ok (by exact hok), effOrder_withHost hn, cache_withHost]
    exact afterRead_ignoresHost h reg k _ _ (by rwa [cache_cfg])

theorem awaitRead_ignoresHost (h : Endian) (reg : Reg) (k : AfterRead) : IgnoresHost h (awaitRead reg k) :=
  awaitAnswer_ignoresHost (onReadAnswer_ignoresHost h reg k)

theorem readReg_ignoresHost (h : Endian) (reg : Reg) (k : AfterRead) : IgnoresHost h (readReg reg k) := by
  intro s hn
  cases hh : s.hit reg.address with
  | false =>
    rw [readReg_miss hh, readReg_miss (by exact hh), readRequest_withHost hn]
    exact awaitRead_ignoresHost h reg k (emit _ s) hn
  | true =>
    cases hv : slotRead s (indexOf s.cfg reg.address) with
    | some v =>
      rw [readReg_hit hh hv, readReg_hit (by exact hh) (by exact hv)]
      exact afterRead_ignoresHost h reg k v s hn
    | none =>
      rw [readReg_empty hh hv, readReg_empty (by exact hh) (by exact hv)]
      rfl

theorem whenValid_ignoresHost {h : Endian} {f : State → StepResult} (hf : IgnoresHost h f) (i : Instr) :
    IgnoresHost h fun s => whenValid i s (f s) := by
  intro s hn
  have hwf : i.wf (withHost h s).cfg = i.wf s.cfg := by cases i <;> rfl
  simp only [whenValid, hwf]
  split_ifs
  · exact hf s hn
  · rfl

/-- No command looks at the host's order but through the effective order (R91, R99). The cases are the constructors':
`exec_induction` asks for every request made of the configuration, and one could be made of the host's order itself. -/
theorem exec_ignoresHost (h : Endian) (i : Instr) : IgnoresHost h (exec i) := by
  cases i with
  | rdreg reg => exact whenValid_ignoresHost (readReg_ignoresHost h reg .whole) _
  | wrreg reg v => exact whenValid_ignoresHost (writeReg_ignoresHost h reg v) _
  | wrcmd address aw =>
    refine whenValid_ignoresHost (fun s hn => ?_) _
    rw [writeRequest_withHost hn]
    exact awaitWrite_ignoresHost h _ (emit _ s) hn
  | rdmsk reg masks => exact whenValid_ignoresHost (readReg_ignoresHost h reg _) _
  | wrmsk reg entries =>
    refine whenValid_ignoresHost (fun s hn => ?_) _
    cases entries with
    | nil => rfl
    | cons e es =>
      cases hm : mergeMasks (e :: es) with
      | none => simp only [hm]; rfl
      | some mv =>
        simp only [hm]
        split_ifs
        · exact writeReg_ignoresHost h reg mv s hn
        · exact readReg_ignoresHost h reg _ s hn
  | ismemo address aw width => exact whenValid_ignoresHost (fun _ _ => rfl) _

/-- The decoder does not look at the host's order, nor does a command (R59, R99). -/
theorem runPacket_ignoresHost (h : Endian) (p : Packet) : IgnoresHost h (runPacket p) := by
  intro s hn
  have hdecode : decode (withHost h s).cfg p = decode s.cfg p := rfl
  simp only [runPacket, hdecode]
  cases decode s.cfg p with
  | accept i => exact exec_ignoresHost h i s hn
  | reject e => rfl

theorem idleStep_ignoresHost (h : Endian) : IgnoresHost h idleStep := by
  intro s hn
  have hinputs : (withHost h s).inputs = s.inputs := rfl
  simp only [idleStep, hinputs]
  cases s.inputs with
  | nil => rfl
  | cons x rest =>
    cases x with
    | present p => exact runPacket_ignoresHost h p (latch p rest s) hn
    | reset => rfl
    | answer a => rfl

theorem phaseStep_ignoresHost (h : Endian) : IgnoresHost h phaseStep := by
  intro s hn
  have hseq : (withHost h s).seq = s.seq := rfl
  have hinputs : (withHost h s).inputs = s.inputs := rfl
  simp only [phaseStep, hseq, hinputs]
  cases s.seq with
  | idle => exact idleStep_ignoresHost h s hn
  | decode p => exact runPacket_ignoresHost h p s hn
  | tRead reg k =>
    simp only
    split_ifs
    · rfl
    · exact awaitRead_ignoresHost h reg k s hn
  | tWrite job =>
    simp only
    split_ifs
    · rfl
    · exact awaitWrite_ignoresHost h job s hn
  | respond r => rfl

/-- Settles O38: a valid configuration is valid with either host order, and its step goes by the phase. -/
theorem hostOrderMattersOnlyForNative : Obligations.HostOrderMattersOnlyForNative := by
  intro s h hn
  have hvalid : validCfg (withHost h s).cfg = validCfg s.cfg := rfl
  simp only [step, hvalid]
  split_ifs
  · exact phaseStep_ignoresHost h s hn
  · rfl

end Sys2Proof.Machine
end

section
/-! PROOFS. The Memoization Cache (42_memo.md): what `indexOf` answers, and what writing and marking a slot change and
leave. -/

namespace Sys2Proof.Machine

open Sys2Proof

/-! ### The slot of an address -/

theorem isCacheable_iff (cfg : Cfg) (i : Nat) : isCacheable cfg i = true ↔ i < cfg.memo.length := decide_eq_true_iff

theorem indexOf_lt_length_iff (cfg : Cfg) (a : Word) :
    indexOf cfg a < cfg.memo.length ↔ ∃ m ∈ cfg.memo, m.address = a := by
  simp only [indexOf, List.findIdx_lt_length, decide_eq_true_eq]

/-- No slot before the one `indexOf` answers has the address (R111). -/
theorem address_ne_of_lt_indexOf {cfg : Cfg} {a : Word} {j : Nat} {m : Reg} (hj : j < indexOf cfg a)
    (hm : cfg.memo[j]? = some m) : m.address ≠ a := by
  obtain ⟨_, rfl⟩ := List.getElem?_eq_some_iff.1 hm
  exact of_decide_eq_false (List.not_of_lt_findIdx hj)

/-- Settles O39: `indexOf` is in range exactly when some register has the address, and it never exceeds `N_MEMO`. -/
theorem indexOfFindsTheLeastSlot : Obligations.IndexOfFindsTheLeastSlot := by
  intro cfg a
  constructor
  · intro hex
    have hlt : indexOf cfg a < cfg.memo.length := (indexOf_lt_length_iff cfg a).2 hex
    exact ⟨(isCacheable_iff cfg _).2 hlt, indexOf_lt hlt, fun _ _ => address_ne_of_lt_indexOf⟩
  · intro hnone
    have hge : ¬indexOf cfg a < cfg.memo.length := fun hlt =>
      let ⟨m, hm, hma⟩ := (indexOf_lt_length_iff cfg a).1 hlt
      hnone m hm hma
    exact ⟨(indexOf_le cfg a).antisymm (Nat.le_of_not_lt hge),
      Bool.eq_false_iff.2 (mt (isCacheable_iff cfg _).1 hge)⟩

/-! ### Reading a slot, writing it and marking it -/

theorem slotRead_of_getElem? {s : State} {i : Nat} {x : Slot} (h : s.memo[i]? = some x) : slotRead s i = x.val := by
  rw [slotRead, h]

theorem isPopulated_of_getElem? {s : State} {i : Nat} {x : Slot} (h : s.memo[i]? = some x) :
    isPopulated s i = x.seen := by
  rw [isPopulated, h]

theorem slotWrite_memo_self {s : State} {i : Nat} {x : Slot} (v : Word) (h : s.memo[i]? = some x) :
    (slotWrite i v s).memo[i]? = some { x with val := some v } := by
  simp [slotWrite, h]

theorem slotWrite_memo_ne {i j : Nat} (v : Word) (s : State) (h : j ≠ i) :
    (slotWrite i v s).memo[j]? = s.memo[j]? :=
  List.getElem?_modify_ne _ _ h.symm

theorem markPopulated_memo_self {s : State} {i : Nat} {x : Slot} (h : s.memo[i]? = some x) :
    (markPopulated i s).memo[i]? = some { x with seen := true } := by
  simp [markPopulated, h]

theorem markPopulated_memo_ne {i j : Nat} (s : State) (h : j ≠ i) : (markPopulated i s).memo[j]? = s.memo[j]? :=
  List.getElem?_modify_ne _ _ h.symm

/-- Marking is idempotent: a populated slot is its own marked form (R116). -/
theorem markPopulated_of_isPopulated {s : State} {i : Nat} {x : Slot} (hx : s.memo[i]? = some x)
    (hp : isPopulated s i = true) : markPopulated i s = s := by
  have hseen : x.seen = true := (isPopulated_of_getElem? hx).symm.trans hp
  have hmemo : (markPopulated i s).memo = s.memo := by
    apply List.ext_getElem?
    intro j
    by_cases hj : j = i
    · rw [hj, markPopulated_memo_self hx, hx, ← hseen]
    · exact markPopulated_memo_ne s hj
  calc markPopulated i s = { s with memo := (markPopulated i s).memo } := rfl
    _ = s := by rw [hmemo]

/-- Settles O40, from the slot that each of the two updates leaves at its index and the slots it leaves elsewhere. -/
theorem slotWriteAndMarkEffects : Obligations.SlotWriteAndMarkEffects := by
  intro s i v hi
  have hx : s.memo[i]? = some s.memo[i] := List.getElem?_eq_getElem hi
  have hw := slotWrite_memo_self v hx
  have hm := markPopulated_memo_self hx
  exact ⟨slotRead_of_getElem? hw,
    (isPopulated_of_getElem? hw).trans (isPopulated_of_getElem? hx).symm,
    isPopulated_of_getElem? hm,
    (slotRead_of_getElem? hm).trans (slotRead_of_getElem? hx).symm,
    markPopulated_of_isPopulated hx,
    fun _ hj => ⟨slotWrite_memo_ne v s hj, markPopulated_memo_ne s hj⟩⟩

end Sys2Proof.Machine
end

section
/-! PROOFS. The commands on the answers of their transport (43_commands.md): what each returns, the requests it sends,
the slot it leaves, and the packets its operand checks reject. -/

namespace Sys2Proof.Machine

open Sys2Proof

/-! ### The commands that read: RDREG and RDMSK -/

/-- After its read of `reg` the command only returns: it answers `g v` for the register value `v` (R127, R130). -/
def Returns (reg : Reg) (k : AfterRead) (g : Word → List Word) : Prop :=
  ∀ v s, afterRead reg k v s = .next { s with seq := .idle, out := s.out ++ [okOf (g v)] }

theorem returns_whole (reg : Reg) : Returns reg .whole fun v => [v] := fun _ _ => rfl

theorem returns_fields (reg : Reg) (ms : List Mask) : Returns reg (.fields ms) fun v => ms.map fun m => shiftOut m v :=
  fun _ _ => rfl

/-- `ReadReg` of a command that only returns: from a populated slot with no request, and otherwise with one transport
read, whose failure changes no slot (R125, R161). -/
theorem readReg_of_returns {reg : Reg} {k : AfterRead} {g : Word → List Word} (hk : Returns reg k g) (s : State) :
    (∀ v, s.hit reg.address = true → slotRead s (indexOf s.cfg reg.address) = some v →
      readReg reg k s = .next { s with seq := .idle, out := s.out ++ [okOf (g v)] }) ∧
    (∀ a rest, s.hit reg.address = false → s.inputs = .answer a :: rest →
      (a.succeeds s → readReg reg k s = .next { s with
        memo := slotsHolding s reg.address (valueRead s reg a), seq := .idle, inputs := rest,
        out := s.out ++ [readOf s reg, okOf (g (valueRead s reg a))] }) ∧
      (¬a.succeeds s → readReg reg k s = .next { s with
        seq := .idle, inputs := rest, out := s.out ++ [readOf s reg, failureOf s a] })) := by
  refine ⟨fun v hh hv => (readReg_hit hh hv).trans (hk v s), fun a rest hh hi => ⟨fun ha => ?_, ?_⟩⟩
  · rw [readReg_answer_ok hh hi ha, hk]
    simp
  · exact readReg_answer_fail hh hi

/-- Settles O41: RDREG is `ReadReg`, returning the register value. -/
theorem rdregResult : Obligations.RdregResult := by
  intro s reg hwf
  have hexec : exec (.rdreg reg) s = readReg reg .whole s := whenValid_of_wf hwf
  rw [hexec]
  exact readReg_of_returns (returns_whole reg) s

/-- Settles O44: RDMSK is `ReadReg`, returning the fields of the register value. -/
theorem rdmskResult : Obligations.RdmskResult := by
  intro s reg ms hwf
  have hexec : exec (.rdmsk reg ms) s = readReg reg (.fields ms) s := whenValid_of_wf hwf
  rw [hexec]
  exact readReg_of_returns (returns_fields reg ms) s

/-! ### The commands that write: WRREG and WRCMD -/

/-- The packet of a command gets through checks 1 to 6 and is left to its operand checks, if its fields are those of
its opcode and its words are clean and assemble to it (R60, R63). -/
theorem decode_encode_eq_checkOperands {cfg : Cfg} {i : Instr} (op : Opcode) (w : Option Width) (aw : Width)
    (nm : BitVec 4) (ops : List Word) (hp : encode i = ⟨controlWord op.field (widthField w) aw.field nm, ops⟩)
    (hw : op.widthOf (widthField w) = some w) (hn : op.countAllowed cfg nm = true)
    (hl : ops.length = op.operandWords nm) (hj : assemble op w aw ops = some i)
    (hclean : (op.maskWords ops).all maskWordClean = true) :
    decode cfg (encode i) = checkOperands cfg true i := by
  rw [hp, ← hclean]
  refine decode_of_checks ?_ (rsv_controlWord ..) ?_ ?_ ?_ ?_ hj
  · rw [opc_controlWord, opcode_ofField_field]
  · rwa [w_controlWord]
  · rw [aw_controlWord, width_ofField_field]
  · rwa [nm_controlWord]
  · rwa [nm_controlWord]

theorem width_field_toNat (w : Width) : w.field.toNat = w.bytes := by
  cases w <;> rfl

/-- A WRREG packet whose value is too wide is rejected by check 9 (R128, R192). -/
theorem decode_wrreg_valueRange {cfg : Cfg} {reg : Reg} {v : Word}
    (haddr : addressFits reg.address reg.addressWidth = true) (hv : 2 ^ (8 * reg.width.bytes) ≤ v.toNat) :
    decode cfg (encode (.wrreg reg v)) = .reject .valueRange := by
  have hwide : valueFits v reg.width = false := decide_eq_false (Nat.not_lt.2 hv)
  rw [decode_encode_eq_checkOperands .wrreg (some reg.width) reg.addressWidth 0 [reg.address, v] rfl
    (widthOf_widthField_some (by decide) _) rfl rfl rfl rfl]
  simp [checkOperands, Instr.addressLegal, Instr.address, Instr.addressWidth, haddr, Instr.masksLegal,
    Instr.valuesLegal, hwide]

/-- No command register has the address of a memoized one (check 10 of R60). -/
theorem shapeMatches_none_of_memoized {cfg : Cfg} {a : Word} {aw : Width} (h : ∃ m ∈ cfg.memo, m.address = a) :
    shapeMatches cfg a aw none = false := by
  obtain ⟨m, hm, hma⟩ := h
  by_contra hne
  cases (shape_of_slot (Bool.not_eq_false _ ▸ hne) hm hma).2

/-- A WRCMD packet to a memoized register's address is rejected by check 10 (R129, R191). -/
theorem decode_wrcmd_memoMismatch {cfg : Cfg} {a : Word} {aw : Width} (haddr : addressFits a aw = true)
    (h : ∃ m ∈ cfg.memo, m.address = a) : decode cfg (encode (.wrcmd a aw)) = .reject .memoMismatch := by
  rw [decode_encode_eq_checkOperands .wrcmd none aw 0 [a] rfl rfl rfl rfl rfl rfl]
  simp [checkOperands, Instr.addressLegal, Instr.address, Instr.addressWidth, haddr, Instr.masksLegal,
    Instr.valuesLegal, Instr.shapeLegal, Instr.width, shapeMatches_none_of_memoized h]

/-- Settles O42: WRREG is `WriteReg`, and a value too wide fails check 9, the first of its checks that can fail. -/
theorem wrregResult : Obligations.WrregResult := by
  constructor
  · intro s reg v a rest hwf hi
    have hexec : exec (.wrreg reg v) s = writeReg reg v s := whenValid_of_wf hwf
    rw [hexec]
    exact writeReg_answer hi
  · intro cfg reg v
    refine ⟨opc_controlWord .., ?_, rfl, decode_wrreg_valueRange⟩
    rw [encode, w_controlWord, width_field_toNat]

/-- Settles O43: the answer to the empty write is only reported, and check 10 rejects a memoized address. -/
theorem wrcmdResult : Obligations.WrcmdResult := by
  constructor
  · intro s a aw x rest hwf hi
    have hexec : exec (.wrcmd a aw) s =
        onWriteAnswer .command x { emit (.request (writeRequest s.cfg a aw [])) s with inputs := rest } :=
      (whenValid_of_wf hwf).trans (awaitAnswer_answer (by exact hi))
    rw [hexec, onWriteAnswer_eq]
    by_cases hneg : x.signed s.cfg < 0
    · simp [hneg, failTransport, respond, emit, writeRequest, failureOf]
    · simp [hneg, returnOk, respond, emit, writeRequest, okOf]
  · intro cfg a aw
    exact ⟨opc_controlWord .., w_controlWord .., rfl, decode_wrcmd_memoMismatch⟩

/-! ### WRMSK -/

/-- Settles O45: the merged value is written by `WriteReg`. -/
theorem wrmskSpanningResult : Obligations.WrmskSpanningResult := by
  intro s reg e es mv a rest hwf hmv hsp hi
  have hexec : exec (.wrmsk reg (e :: es)) s = writeReg reg mv s :=
    (execWrmsk_merged hwf hmv).trans (if_pos hsp)
  rw [hexec]
  exact writeReg_answer hi

/-- A valid WRMSK whose masks merge and do not span the register merges into what `ReadReg` gives (R131). -/
theorem exec_wrmsk_not_spanning {reg : Reg} {e : Entry} {es : List Entry} {mv : Word} {s : State}
    (hwf : (Instr.wrmsk reg (e :: es)).wf s.cfg = true) (hmv : mergeMasks (e :: es) = some mv)
    (hsp : spans reg.width (mergedMask e.mask (es.map Entry.mask)) = false) :
    exec (.wrmsk reg (e :: es)) s = readReg reg (.merge (mergedMask e.mask (es.map Entry.mask)) mv) s :=
  (execWrmsk_merged hwf hmv).trans (if_neg (ne_true_of_eq_false hsp))

/-- Settles O46: `ReadReg` gives the slot's value with no request, and its merge is written by `WriteReg`. -/
theorem wrmskMergesIntoThePopulatedSlot : Obligations.WrmskMergesIntoThePopulatedSlot := by
  intro s reg e es mv cur a rest hwf hmv hsp hh hcur hi new
  have hexec : exec (.wrmsk reg (e :: es)) s = writeReg reg new s :=
    (exec_wrmsk_not_spanning hwf hmv hsp).trans (readReg_hit hh hcur)
  rw [hexec]
  exact writeReg_answer hi

theorem slotsHolding_length (s : State) (a v : Word) : (slotsHolding s a v).length = s.memo.length := by
  simp only [slotsHolding]
  split_ifs <;> simp

/-- Of two values given to a register its slot holds the later (R115). -/
theorem slotsHolding_of_memo {s t : State} {a u : Word} (v : Word) (hcfg : t.cfg = s.cfg)
    (hmemo : t.memo = slotsHolding s a u) : slotsHolding t a v = slotsHolding s a v := by
  simp only [slotsHolding, hcfg, hmemo]
  split_ifs <;> simp

/-- `ReadReg` and then `WriteReg` of the merged value through the transport, the read having succeeded and the write's
answer at hand (R125, R126, R131). -/
theorem readReg_merge_answers {reg : Reg} {m : Mask} {mv : Word} {a b : Answer} {rest : List Input} {s : State}
    (hh : s.hit reg.address = false) (hi : s.inputs = .answer a :: .answer b :: rest) (ha : a.succeeds s) :
    let cur := valueRead s reg a
    let new := applyShifted reg.width m cur mv
    (b.succeeds s → readReg reg (.merge m mv) s = .next { s with
      memo := slotsHolding s reg.address new, seq := .idle, inputs := rest,
      out := s.out ++ [readOf s reg, writeOf s reg new, okOf []] }) ∧
    (¬b.succeeds s → readReg reg (.merge m mv) s = .next { s with
      memo := slotsHolding s reg.address cur, seq := .idle, inputs := rest,
      out := s.out ++ [readOf s reg, writeOf s reg new, failureOf s b] }) := by
  intro cur new
  obtain ⟨hok, hfail⟩ := writeReg_answer (reg := reg) (v := new) (a := b) (rest := rest)
    (s := { s with
      memo := slotsHolding s reg.address cur, inputs := .answer b :: rest, out := s.out ++ [readOf s reg] }) rfl
  rw [readReg_answer_ok hh hi ha]
  constructor
  · intro hb
    refine (hok hb).trans ?_
    rw [slotsHolding_of_memo (s := s) (u := cur) new]
    · simp [writeOf]
    · rfl
    · rfl
  · intro hb
    refine (hfail hb).trans ?_
    simp [writeOf, failureOf]

/-- Settles O47: a failed read ends the command, and after a successful one the merged value is written. -/
theorem wrmskReadsMergesAndWrites : Obligations.WrmskReadsMergesAndWrites := by
  intro s reg e es mv a rest hwf hmv hsp hh hi cur new
  rw [exec_wrmsk_not_spanning hwf hmv hsp]
  refine ⟨readReg_answer_fail hh hi, ?_⟩
  rintro ha b rest' rfl
  exact readReg_merge_answers hh hi ha

/-- Settles O49: overlapping masks have no merged value, and WRMSK refuses where there is none. -/
theorem overlappingWrmskIsRefused : Obligations.OverlappingWrmskIsRefused := by
  intro s reg entries hwf hoverlap
  have hvalid : ∀ e ∈ entries, e.mask.valid reg.width = true := List.all_eq_true.1 (wf_parts hwf).2.2.1
  have hnone : mergeMasks entries = none := (overlapHasNoMergedValue reg.width entries hvalid).2 hoverlap
  cases entries with
  | nil => simp [mergeMasks, pairwiseDisjoint] at hnone
  | cons e es => simp only [exec, execWrmsk, whenValid_of_wf hwf, hnone]

/-! ### What a WRMSK writes, bit by bit -/

theorem lt_backing_of_fits {v : Word} {w : Width} (h : valueFits v w = true) : v.toNat < 2 ^ backingBits w :=
  Nat.lt_of_lt_of_le ((valueFits_iff v w).1 h) (Nat.pow_le_pow_right (by decide) (bytes_le_backing w))

/-- Merging over the whole register keeps nothing of the original (R72, R77). -/
theorem applyShifted_of_spans {w : Width} {m : Mask} (h : m.valid w = true) (hsp : spans w m = true) {original : Word}
    (ho : valueFits original w = true) (shifted : Word) : applyShifted w m original shifted = shifted := by
  obtain ⟨hlo, hhi⟩ := (spans_iff w m).1 hsp
  apply BitVec.eq_of_getLsbD_eq
  intro j _
  rw [applyShifted, BitVec.getLsbD_or, keep_bit h]
  by_cases hj : j ≤ m.hi
  · simp [hlo, hj]
  · simp [(toNat_lt_iff_bits original _).1 ((valueFits_iff original w).1 ho) j (by omega)]

/-- Settles O48: both paths write the merge of the merged value into the current one, and the merged value has a
field's bits in its mask and none outside all masks. -/
theorem wrmskGapBitsAreWrittenZero : Obligations.WrmskGapBitsAreWrittenZero := by
  intro w e es mv cur hall hmv hcur m new j
  obtain ⟨hd, rfl⟩ := mergeMasks_some hmv
  have hv : ∀ x ∈ e :: es, x.mask.valid w = true := fun x hx => (hall x hx).1
  have hf : ∀ x ∈ e :: es, x.fits = true := fun x hx => (hall x hx).2
  have hmasks : ∀ n ∈ e.mask :: es.map Entry.mask, n.valid w = true := by
    simpa [List.forall_mem_cons] using hv
  obtain ⟨hm, hbounds, -, -⟩ : m.valid w = true ∧ _ := mergedMaskIsTheLeastRange w e.mask (es.map Entry.mask) hmasks
  have hin : ∀ x ∈ e :: es, x.mask.hi ≤ m.hi ∧ m.lo ≤ x.mask.lo := fun x hx =>
    hbounds _ (List.mem_map_of_mem (f := Entry.mask) hx)
  have hnew : new = applyShifted w m cur (orOfShifted (e :: es)) := by
    by_cases hsp : spans w m = true
    · exact (if_pos hsp).trans (applyShifted_of_spans hm hsp hcur _).symm
    · exact if_neg hsp
  have houtside : ∀ j, ¬(m.lo ≤ j ∧ j ≤ m.hi) → (orOfShifted (e :: es)).getLsbD j = false := fun j hj =>
    orOfShifted_bit_outside hv hf fun x hx hx' =>
      hj ⟨(hin x hx).2.trans hx'.1, hx'.2.trans (hin x hx).1⟩
  rw [hnew, applyShifted_bit hm (lt_backing_of_fits hcur) houtside]
  refine ⟨fun x hx hlo hhi => ?_, fun hgap hlo hhi => ?_, fun hj => if_neg hj⟩
  · obtain ⟨hxhi, hxlo⟩ := hin x hx
    rw [if_pos ⟨hxlo.trans hlo, hhi.trans hxhi⟩]
    exact orOfShifted_bit_inside hv hf hd hx hlo hhi
  · rw [if_pos ⟨hlo, hhi⟩]
    exact orOfShifted_bit_outside hv hf hgap

/-! ### ISMEMO -/

/-- Settles O50: a slot index is in range exactly when some memoized register has the address. -/
theorem ismemoResult : Obligations.IsmemoResult := by
  intro s a aw w hwf
  have hexec : exec (.ismemo a aw w) s =
      .next (returnOk [if isCacheable s.cfg (indexOf s.cfg a) then 1 else 0] s) := whenValid_of_wf hwf
  obtain ⟨hsome, hnone⟩ := indexOfFindsTheLeastSlot s.cfg a
  rw [hexec]
  constructor
  · intro h
    rw [(hsome h).1]
    rfl
  · intro h
    rw [(hnone h).2]
    rfl

/-- Settles O51: check 10 makes the shape of a command with a slot's address the slot's own. -/
theorem ismemoMatchesTheWholeDescriptor : Obligations.IsmemoMatchesTheWholeDescriptor := by
  intro cfg a aw w hwf hc
  obtain ⟨-, -, -, -, hshape⟩ := wf_parts hwf
  obtain ⟨m, hm, rfl⟩ := indexOf_lt ((isCacheable_iff cfg _).1 hc)
  have hmem := List.mem_of_getElem? hm
  obtain ⟨rfl, rfl⟩ := shape_of_slot hshape hmem rfl
  exact ⟨m.width, rfl, hmem⟩

end Sys2Proof.Machine
end

section
/-! PROOFS. How many transport reads and writes each completed command sends (43_commands.md R135, R136). -/

namespace Sys2Proof.Machine

open Sys2Proof

/-- From the history `l` to the history `m` the block has sent `reads` transport reads and `writes` transport
writes. -/
def Sent (l m : List Output) (reads writes : Nat) : Prop :=
  readsIn m = readsIn l + reads ∧ writesIn m = writesIn l + writes

@[simp] theorem readsIn_append (l m : List Output) : readsIn (l ++ m) = readsIn l + readsIn m := by
  simp [readsIn]

@[simp] theorem writesIn_append (l m : List Output) : writesIn (l ++ m) = writesIn l + writesIn m := by
  simp [writesIn]

/-- A response is no request. -/
theorem sent_response (l : List Output) (r : ResponsePacket) : Sent l (l ++ [.response r]) 0 0 :=
  ⟨readsIn_append .., writesIn_append ..⟩

/-- A read request counts as one read (R31). -/
theorem Sent.of_read {l m : List Output} {cfg : Cfg} {reg : Reg} {reads writes : Nat}
    (h : Sent (l ++ [.request (readRequest cfg reg)]) m reads writes) : Sent l m (reads + 1) writes := by
  obtain ⟨hreads, hwrites⟩ := h
  have hread : readsIn [.request (readRequest cfg reg)] = 1 ∧ writesIn [.request (readRequest cfg reg)] = 0 :=
    ⟨rfl, rfl⟩
  rw [readsIn_append] at hreads
  rw [writesIn_append] at hwrites
  constructor <;> omega

/-- A write request counts as one write (R32). -/
theorem Sent.of_write {l m : List Output} {cfg : Cfg} {a : Word} {aw : Width} {data : List Byte} {reads writes : Nat}
    (h : Sent (l ++ [.request (writeRequest cfg a aw data)]) m reads writes) : Sent l m reads (writes + 1) := by
  obtain ⟨hreads, hwrites⟩ := h
  have hwrite : readsIn [.request (writeRequest cfg a aw data)] = 0 ∧
      writesIn [.request (writeRequest cfg a aw data)] = 1 := ⟨rfl, rfl⟩
  rw [readsIn_append] at hreads
  rw [writesIn_append] at hwrites
  constructor <;> omega

/-- A wait that does not rest has had its answer. -/
theorem awaitAnswer_ends {q : Seq} {k : Answer → State → StepResult} {s t : State} (hq : q ≠ .idle)
    (h : awaitAnswer q k s = .next t) (ht : t.seq = .idle) :
    ∃ a rest, s.inputs = .answer a :: rest ∧ k a { s with inputs := rest } = .next t := by
  rcases awaitAnswer_next h with ⟨-, rfl⟩ | hanswered
  · exact absurd ht hq
  · exact hanswered

/-- The answer to a write is followed by the response alone (R126, R129). -/
theorem onWriteAnswer_sent {job : WriteJob} {a : Answer} {s t : State} (h : onWriteAnswer job a s = .next t) :
    Sent s.out t.out 0 0 := by
  rw [onWriteAnswer_eq] at h
  split_ifs at h
  · cases h
    exact sent_response s.out _
  · cases job with
    | command =>
      cases h
      exact sent_response s.out _
    | register reg v =>
      cases h
      simpa [returnOk] using sent_response (cache reg.address v s).out _

/-- A completed write sends its one request (R126, R129). -/
theorem awaitWrite_sent {job : WriteJob} {a : Word} {aw : Width} {data : List Byte} {s t : State}
    (h : awaitWrite job (emit (.request (writeRequest s.cfg a aw data)) s) = .next t) (ht : t.seq = .idle) :
    Sent s.out t.out 0 1 := by
  obtain ⟨x, rest, -, h⟩ := awaitAnswer_ends (by simp) h ht
  exact Sent.of_write (onWriteAnswer_sent h)

/-- The transport writes of a command after its successful read: one if it merges (R131). -/
def AfterRead.writes : AfterRead → Nat
  | .whole => 0
  | .fields _ => 0
  | .merge _ _ => 1

theorem afterRead_sent {reg : Reg} {k : AfterRead} {v : Word} {s t : State} (h : afterRead reg k v s = .next t)
    (ht : t.seq = .idle) : Sent s.out t.out 0 k.writes := by
  cases k with
  | whole =>
    cases h
    exact sent_response s.out _
  | fields ms =>
    cases h
    exact sent_response s.out _
  | merge m mv => exact awaitWrite_sent h ht

/-- The answer to a read is followed by the rest of the command, and by the response alone if it is a failure (R125,
R136). -/
theorem onReadAnswer_sent {reg : Reg} {k : AfterRead} {a : Answer} {s t : State} (h : onReadAnswer reg k a s = .next t)
    (ht : t.seq = .idle) : Sent s.out t.out 0 (if a.signed s.cfg < 0 then 0 else k.writes) := by
  split_ifs with hneg
  · rw [onReadAnswer_failed hneg] at h
    cases h
    exact sent_response s.out _
  · rw [onReadAnswer_ok (not_lt.1 hneg)] at h
    simpa using afterRead_sent h ht

/-- `ReadReg` of a populated slot sends no read (R125). -/
theorem readReg_sent_hit {reg : Reg} {k : AfterRead} {s t : State} (hh : s.hit reg.address = true)
    (h : readReg reg k s = .next t) (ht : t.seq = .idle) : Sent s.out t.out 0 k.writes := by
  rcases readReg_next h with ⟨v, -, -, h⟩ | ⟨hmiss, -⟩
  · exact afterRead_sent h ht
  · cases hh.symm.trans hmiss

/-- `ReadReg` of a slot that is not populated sends one read (R125, R136). -/
theorem readReg_sent_miss {reg : Reg} {k : AfterRead} {s t : State} (hh : s.hit reg.address = false)
    (h : readReg reg k s = .next t) (ht : t.seq = .idle) :
    ∃ a rest, s.inputs = .answer a :: rest ∧ Sent s.out t.out 1 (if a.signed s.cfg < 0 then 0 else k.writes) := by
  rw [readReg_miss hh] at h
  obtain ⟨a, rest, hi, h⟩ := awaitAnswer_ends (by simp) h ht
  exact ⟨a, rest, hi, Sent.of_read (onReadAnswer_sent h ht)⟩

/-- The requests of a completed `ReadReg` whose command writes nothing (R135). -/
theorem readReg_sent {reg : Reg} {k : AfterRead} {s t : State} (hk : k.writes = 0) (h : readReg reg k s = .next t)
    (ht : t.seq = .idle) : Sent s.out t.out (if s.hit reg.address then 0 else 1) 0 := by
  cases hh : s.hit reg.address with
  | true => simpa [hk] using readReg_sent_hit hh h ht
  | false =>
    obtain ⟨a, rest, -, hsent⟩ := readReg_sent_miss hh h ht
    simpa [hk] using hsent

/-- A WRMSK that answers a next state has an entry and a merged value (R131, R133). -/
theorem exec_wrmsk_next {reg : Reg} {entries : List Entry} {s t : State}
    (h : exec (.wrmsk reg entries) s = .next t) :
    ∃ e es mv, entries = e :: es ∧
      (if spans reg.width (mergedMask e.mask (es.map Entry.mask)) then writeReg reg mv s
      else readReg reg (.merge (mergedMask e.mask (es.map Entry.mask)) mv) s) = .next t := by
  obtain ⟨hwf, hmeaning⟩ := whenValid_next h
  cases entries with
  | nil => cases hmeaning
  | cons e es =>
    cases hmv : mergeMasks (e :: es) with
    | none => simp only [hmv] at hmeaning; cases hmeaning
    | some mv => exact ⟨e, es, mv, rfl, (execWrmsk_merged hwf hmv).symm.trans h⟩

/-- Settles O21, command by command from the counts of `ReadReg` and of a write. -/
theorem transportRequestCounts : Obligations.TransportRequestCounts := by
  intro i s t h ht
  cases i with
  | rdreg reg => exact readReg_sent rfl (whenValid_next h).2 ht
  | rdmsk reg ms => exact readReg_sent rfl (whenValid_next h).2 ht
  | wrreg reg v => exact awaitWrite_sent (whenValid_next h).2 ht
  | wrcmd a aw => exact awaitWrite_sent (whenValid_next h).2 ht
  | ismemo a aw w =>
    cases (whenValid_next h).2
    exact sent_response s.out _
  | wrmsk reg entries =>
    obtain ⟨e, es, mv, rfl, hnext⟩ := exec_wrmsk_next h
    refine ⟨e, es, rfl, ?_⟩
    split_ifs with hnoread
    · by_cases hsp : spans reg.width (mergedMask e.mask (es.map Entry.mask)) = true
      · rw [if_pos hsp] at hnext
        exact awaitWrite_sent hnext ht
      · rw [if_neg hsp] at hnext
        exact readReg_sent_hit (hnoread.resolve_left hsp) hnext ht
    · obtain ⟨hsp, hmiss⟩ := not_or.1 hnoread
      rw [if_neg hsp] at hnext
      obtain ⟨a, rest, hi, hreads, hwrites⟩ := readReg_sent_miss (Bool.eq_false_iff.2 hmiss) hnext ht
      exact ⟨hreads, a, rest, hi, hwrites⟩

end Sys2Proof.Machine
end

section
/-! PROOFS. The source's properties (43_commands.md R139): what a command reads after another has written or read the
register. -/

namespace Sys2Proof.Machine

open Sys2Proof

/-! ### Reading a register that has been given a value -/

/-- The state in which a command from `s` ends that gave the register at `a` the value `v`: it sent `sent`, and `rest`
is still to come (R125, R126). -/
def given (s : State) (a v : Word) (sent : List Output) (rest : List Input) : State :=
  { s with memo := slotsHolding s a v, seq := .idle, inputs := rest, out := s.out ++ sent }

theorem writeReg_given {reg : Reg} {v : Word} {a : Answer} {rest : List Input} {s : State}
    (hi : s.inputs = .answer a :: rest) (ha : a.succeeds s) :
    writeReg reg v s = .next (given s reg.address v [writeOf s reg v, okOf []] rest) :=
  (writeReg_answer hi).1 ha

/-- A read of the register at `a` is a hit that gives `v`. -/
def Serves (s : State) (a v : Word) : Prop := s.hit a = true ∧ slotRead s (indexOf s.cfg a) = some v

/-- The slot of a memoized register serves the value the register was given (R125, R126). -/
theorem serves_given {s : State} {a : Word} (hlen : s.memo.length = s.cfg.memo.length)
    (hc : isCacheable s.cfg (indexOf s.cfg a) = true) (v : Word) (sent : List Output) (rest : List Input) :
    Serves (given s a v sent rest) a v := by
  have hlt : indexOf s.cfg a < s.cfg.memo.length := (isCacheable_iff s.cfg _).1 hc
  have hslot : (given s a v sent rest).memo[indexOf s.cfg a]? = some ⟨some v, true⟩ := by
    rw [given, slotsHolding, if_pos hlt, List.getElem?_set_self (hlen ▸ hlt)]
  constructor
  · exact Bool.and_eq_true_iff.2 ⟨hc, isPopulated_of_getElem? hslot⟩
  · exact slotRead_of_getElem? hslot

/-- A register without a slot leaves every slot as it is (R112, R125). -/
theorem slotsHolding_of_uncached {s : State} {a : Word} (hc : isCacheable s.cfg (indexOf s.cfg a) = false) (v : Word) :
    slotsHolding s a v = s.memo :=
  if_neg (of_decide_eq_false hc)

/-- A register without a slot is never a hit (R112). -/
theorem hit_of_uncached {s : State} {a : Word} (hc : isCacheable s.cfg (indexOf s.cfg a) = false) :
    s.hit a = false := by
  simp [State.hit, hc]

/-- The bytes of a value that fits the register are read back as that value (R96). -/
theorem valueRead_of_bytes {s : State} {reg : Reg} {v : Word} {b : Answer} (hv : valueFits v reg.width = true)
    (hb : b.bytes reg.width.bytes = toDev (effOrder s.cfg) v reg.width) : valueRead s reg b = v := by
  apply BitVec.eq_of_toNat_eq
  rw [valueRead, hb, (endianConversionsRoundTrip (effOrder s.cfg) reg.width).1 v]
  exact Nat.mod_eq_of_lt ((valueFits_iff v reg.width).1 hv)

/-- A command that only returns, from a slot that serves `v`, answers with `v` and sends no request (R125). -/
theorem readReg_of_serves {reg : Reg} {k : AfterRead} {g : Word → List Word} (hk : Returns reg k g) {s : State}
    {v : Word} (h : Serves s reg.address v) :
    readReg reg k s = .next { s with seq := .idle, out := s.out ++ [okOf (g v)] } :=
  (readReg_of_returns hk s).1 v h.1 h.2

/-- A command that only returns, on a register without a slot whose value `v` the transport reads back, answers with
`v` after one read and changes no slot (R125, R139). -/
theorem readReg_of_uncached {reg : Reg} {k : AfterRead} {g : Word → List Word} (hk : Returns reg k g) {s : State}
    {v : Word} {b : Answer} {rest : List Input} (hc : isCacheable s.cfg (indexOf s.cfg reg.address) = false)
    (hi : s.inputs = .answer b :: rest) (hb : b.succeeds s) (hv : valueFits v reg.width = true)
    (hbytes : b.bytes reg.width.bytes = toDev (effOrder s.cfg) v reg.width) :
    readReg reg k s =
      .next { s with seq := .idle, inputs := rest, out := s.out ++ [readOf s reg, okOf (g v)] } := by
  rw [((readReg_of_returns hk s).2 b rest (hit_of_uncached hc) hi).1 hb, slotsHolding_of_uncached hc,
    valueRead_of_bytes hv hbytes]

theorem memo_length_of_inv {s : State} (h : s.Inv) : s.memo.length = s.cfg.memo.length :=
  slotsAgree_length ((inv_iff s).1 h).2.1

theorem wrreg_value_fits {cfg : Cfg} {reg : Reg} {v : Word} (h : (Instr.wrreg reg v).wf cfg = true) :
    valueFits v reg.width = true :=
  (wf_parts h).2.2.2.1

/-- A command that only returns, on a register just given `v`: with no request if the register is memoized, and
otherwise after one read, if the transport reads `v` back (R125, R139). -/
theorem readReg_given {reg : Reg} {k : AfterRead} {g : Word → List Word} (hk : Returns reg k g) {s : State}
    {v : Word} (hlen : s.memo.length = s.cfg.memo.length) (hv : valueFits v reg.width = true) (sent : List Output)
    (rest : List Input) :
    let t := given s reg.address v sent rest
    (isCacheable s.cfg (indexOf s.cfg reg.address) = true →
      readReg reg k t = .next { t with out := t.out ++ [okOf (g v)] }) ∧
    (isCacheable s.cfg (indexOf s.cfg reg.address) = false → ∀ b rest', rest = .answer b :: rest' → b.succeeds s →
      b.bytes reg.width.bytes = toDev (effOrder s.cfg) v reg.width →
        readReg reg k t = .next { t with inputs := rest', out := t.out ++ [readOf s reg, okOf (g v)] }) := by
  refine ⟨fun hc => readReg_of_serves hk (serves_given hlen hc v sent rest), ?_⟩
  rintro hc b rest' rfl hb hbytes
  exact readReg_of_uncached hk hc rfl hb hv hbytes

/-- RDREG has no operand of its own that could be illegal. -/
theorem rdreg_wf_of_wrreg {cfg : Cfg} {reg : Reg} {v : Word} (h : (Instr.wrreg reg v).wf cfg = true) :
    (Instr.rdreg reg).wf cfg = true := by
  obtain ⟨hcount, haddr, hmasks, -, hshape⟩ := wf_parts h
  exact (wf_iff cfg _).2 ⟨hcount, haddr, hmasks, rfl, hshape⟩

/-- Settles O54: RDREG returns the value the register was given. -/
theorem writeThenReadReturnsTheValue : Obligations.WriteThenReadReturnsTheValue := by
  intro s reg v a rest hinv hwf hi ha
  obtain ⟨hcached, huncached⟩ := readReg_given (returns_whole reg) (memo_length_of_inv hinv) (wrreg_value_fits hwf)
    [writeOf s reg v, okOf []] rest
  have hread := rdreg_wf_of_wrreg hwf
  refine ⟨_, (whenValid_of_wf hwf).trans (writeReg_given hi ha), rfl, rfl, ?_, ?_⟩
  · intro hc
    exact (whenValid_of_wf hread).trans (hcached hc)
  · intro hc b rest' hr hb hbytes
    exact (whenValid_of_wf hread).trans (huncached hc b rest' hr hb hbytes)

/-- Settles O56: RDMSK returns the fields of the value the register was given. -/
theorem maskedReadAfterWriteReturnsTheFields : Obligations.MaskedReadAfterWriteReturnsTheFields := by
  intro s reg x ms a rest hinv hwf hread hi ha
  obtain ⟨hcached, huncached⟩ := readReg_given (returns_fields reg ms) (memo_length_of_inv hinv)
    (wrreg_value_fits hwf) [writeOf s reg x, okOf []] rest
  refine ⟨_, (whenValid_of_wf hwf).trans (writeReg_given hi ha), ?_, ?_⟩
  · intro hc
    exact (whenValid_of_wf hread).trans (hcached hc)
  · intro hc b rest' hr hb hbytes
    exact (whenValid_of_wf hread).trans (huncached hc b rest' hr hb hbytes)

/-! ### A masked write over a known value -/

theorem mergeMasks_singleton (m : Mask) (v : Word) : mergeMasks [⟨m, v⟩] = some (shiftIn m v) := by
  simp [mergeMasks, pairwiseDisjoint, orOfShifted]

/-- What a valid WRMSK of one mask does (R65, R131). -/
theorem exec_writeMask {s : State} {reg : Reg} {m : Mask} {field : Word}
    (hwf : (Instr.writeMask reg m field).wf s.cfg = true) :
    exec (Instr.writeMask reg m field) s =
      if spans reg.width m then writeReg reg (shiftIn m field) s
      else readReg reg (.merge m (shiftIn m field)) s :=
  execWrmsk_merged hwf (mergeMasks_singleton m field)

/-- A valid WRMSK of one mask writes `applyMask` over a register value that fits, and the result fits (R76, R81). -/
theorem writeMask_value {cfg : Cfg} {reg : Reg} {m : Mask} {original field : Word}
    (hwf : (Instr.writeMask reg m field).wf cfg = true) (ho : valueFits original reg.width = true) :
    valueFits (applyMask reg.width m original field) reg.width = true ∧
      (spans reg.width m = true → applyMask reg.width m original field = shiftIn m field) := by
  obtain ⟨hm, hfits, -⟩ := wrmsk_merged hwf (mergeMasks_singleton m field)
  exact ⟨applyShifted_fits hm ho hfits, fun hsp => applyShifted_of_spans hm hsp ho _⟩

/-- A WRMSK whose mask spans the register writes `applyMask` with no read (R72, R131). -/
theorem exec_writeMask_spans {s : State} {reg : Reg} {m : Mask} {original field : Word}
    (hwf : (Instr.writeMask reg m field).wf s.cfg = true) (ho : valueFits original reg.width = true)
    (hsp : spans reg.width m = true) :
    exec (Instr.writeMask reg m field) s = writeReg reg (applyMask reg.width m original field) s := by
  rw [exec_writeMask hwf, if_pos hsp, (writeMask_value hwf ho).2 hsp]

/-- A WRMSK over a slot that serves a value writes `applyMask` with no read (R131). -/
theorem exec_writeMask_serves {s : State} {reg : Reg} {m : Mask} {original field : Word}
    (hwf : (Instr.writeMask reg m field).wf s.cfg = true) (ho : valueFits original reg.width = true)
    (h : Serves s reg.address original) :
    exec (Instr.writeMask reg m field) s = writeReg reg (applyMask reg.width m original field) s := by
  by_cases hsp : spans reg.width m = true
  · exact exec_writeMask_spans hwf ho hsp
  · rw [exec_writeMask hwf, if_neg hsp, readReg_hit h.1 h.2]
    rfl

/-- A WRMSK of part of a register without a slot reads the value, and writes `applyMask` over it (R131). -/
theorem exec_writeMask_reads {s : State} {reg : Reg} {m : Mask} {original field : Word} {b c : Answer}
    {rest : List Input} (hwf : (Instr.writeMask reg m field).wf s.cfg = true)
    (ho : valueFits original reg.width = true) (hsp : spans reg.width m = false)
    (hc : isCacheable s.cfg (indexOf s.cfg reg.address) = false) (hi : s.inputs = .answer b :: .answer c :: rest)
    (hb : b.succeeds s) (hc' : c.succeeds s)
    (hbytes : b.bytes reg.width.bytes = toDev (effOrder s.cfg) original reg.width) :
    exec (Instr.writeMask reg m field) s =
      .next (given s reg.address (applyMask reg.width m original field)
        [readOf s reg, writeOf s reg (applyMask reg.width m original field), okOf []] rest) := by
  rw [exec_writeMask hwf, if_neg (ne_true_of_eq_false hsp),
    (readReg_merge_answers (hit_of_uncached hc) hi hb).1 hc', valueRead_of_bytes ho hbytes]
  rfl

/-- Settles O55: in each case the WRMSK gives the register `applyMask`, which RDREG then returns. -/
theorem maskedWritePreservesUntouchedBits : Obligations.MaskedWritePreservesUntouchedBits := by
  intro s reg m original field a b rest hinv hwf hmask hi ha hb new
  have ho := wrreg_value_fits hwf
  have hnew : valueFits new reg.width = true := (writeMask_value hmask ho).1
  have hlen := memo_length_of_inv hinv
  let t := given s reg.address original [writeOf s reg original, okOf []] (.answer b :: rest)
  have hlent : t.memo.length = t.cfg.memo.length := (slotsHolding_length s reg.address original).trans hlen
  have hmaskt : (Instr.writeMask reg m field).wf t.cfg = true := hmask
  have hread := fun sent rest => readReg_given (s := t) (returns_whole reg) hlent hnew sent rest
  have hrdreg : ∀ u : State, u.cfg = s.cfg → exec (.rdreg reg) u = readReg reg .whole u := fun u hu =>
    whenValid_of_wf (hu ▸ rdreg_wf_of_wrreg hwf)
  refine ⟨t, (whenValid_of_wf hwf).trans (writeReg_given hi ha), ?_, ?_, ?_⟩
  · intro hc
    have hserves : Serves t reg.address original := serves_given hlen hc original _ _
    exact ⟨_, (exec_writeMask_serves hmaskt ho hserves).trans (writeReg_given rfl hb), rfl,
      (hrdreg (given t reg.address new _ _) rfl).trans ((hread _ rest).1 hc)⟩
  · intro hc hsp c rest' hr hc' hbytes
    exact ⟨_, (exec_writeMask_spans hmaskt ho hsp).trans (writeReg_given rfl hb), rfl,
      (hrdreg (given t reg.address new _ _) rfl).trans ((hread _ rest).2 hc c rest' hr hc' hbytes)⟩
  · rintro hc hsp c d rest' rfl hc' hd hbytes hbytes'
    exact ⟨_, exec_writeMask_reads hmaskt ho hsp hc rfl hb hc' hbytes, rfl,
      (hrdreg (given t reg.address new _ _) rfl).trans ((hread _ _).2 hc d rest' rfl hd hbytes')⟩

/-! ### Reading again -/

/-- A run goes on from the next state of its first step. -/
theorem run_succ {s t : State} (n : Nat) (h : step s = .next t) :
    Host.Core.run Sys2Proof.core (n + 1) s = Host.Core.run Sys2Proof.core n t := by
  have hcore : Sys2Proof.core.step s = .next t := h
  simp only [Host.Core.run, hcore]

/-- The step of an idle block that takes the packet of a valid command runs the command (R19, R59). -/
theorem step_of_encoded {s : State} {i : Instr} {rest : List Input} (hv : validCfg s.cfg = true) (hs : s.seq = .idle)
    (hwf : i.wf s.cfg = true) (hi : s.inputs = .present (encode i) :: rest) :
    step s = exec i (latch (encode i) rest s) :=
  stepRunsThePresentedCommand s (encode i) rest i hv hs hi (encodedCommandDecodesToItself s.cfg i hv hwf)

/-- A presented RDREG of a register whose slot serves `v` is answered with `v` and sends no request (R125, R127). -/
theorem step_rdreg_of_serves {s : State} {reg : Reg} {v : Word} {rest : List Input} (hv : validCfg s.cfg = true)
    (hs : s.seq = .idle) (hwf : (Instr.rdreg reg).wf s.cfg = true) (h : Serves s reg.address v)
    (hi : s.inputs = .present (encode (.rdreg reg)) :: rest) :
    step s = .next { s with inputs := rest, out := s.out ++ [okOf [v]] } := by
  have hhit := (rdregResult (latch (encode (.rdreg reg)) rest s) reg hwf).1 v h.1 h.2
  rw [step_of_encoded hv hs hwf hi, hhit, hs]
  rfl

/-- Any number of presented RDREGs of a register whose slot serves `v` are each answered with `v`, and send no request
(R139 (c)). -/
theorem run_rdregs_of_serves {reg : Reg} {v : Word} {rest : List Input} (n : Nat) {s : State}
    (hv : validCfg s.cfg = true) (hs : s.seq = .idle) (hwf : (Instr.rdreg reg).wf s.cfg = true)
    (h : Serves s reg.address v) (hi : s.inputs = List.replicate n (.present (encode (.rdreg reg))) ++ rest) :
    Host.Core.run Sys2Proof.core n s =
      .next { s with inputs := rest, out := s.out ++ List.replicate n (okOf [v]) } := by
  induction n generalizing s with
  | zero =>
    rw [List.replicate_zero, List.nil_append] at hi
    simp [Host.Core.run, ← hi]
  | succ n ih =>
    let t : State :=
      { s with inputs := List.replicate n (.present (encode (.rdreg reg))) ++ rest, out := s.out ++ [okOf [v]] }
    calc Host.Core.run Sys2Proof.core (n + 1) s
        = Host.Core.run Sys2Proof.core n t := run_succ n (step_rdreg_of_serves hv hs hwf h hi)
      _ = .next { t with inputs := rest, out := t.out ++ List.replicate n (okOf [v]) } := ih (s := t) hv hs hwf h rfl
      _ = .next { s with inputs := rest, out := s.out ++ List.replicate (n + 1) (okOf [v]) } := by
        simp [t, List.replicate_succ]

/-- Settles O53: the first RDREG gives the register the value read, and its slot serves the others. -/
theorem cacheTransparency : Obligations.CacheTransparency := by
  intro s reg a n rest hinv hs hwf hc hmiss ha hi
  have hv : validCfg s.cfg = true := ((inv_iff s).1 hinv).1
  let v := valueRead s reg a
  let presented := List.replicate n (.present (encode (.rdreg reg))) ++ rest
  let t := given s reg.address v [readOf s reg, okOf [v]] presented
  have hstep : step s = .next t :=
    (step_of_encoded hv hs hwf hi).trans (((rdregResult (latch _ _ s) reg hwf).2 a presented hmiss rfl).1 ha)
  have hserves : Serves t reg.address v := serves_given (memo_length_of_inv hinv) hc v _ _
  calc Host.Core.run Sys2Proof.core (n + 1) s
      = Host.Core.run Sys2Proof.core n t := run_succ n hstep
    _ = .next { t with inputs := rest, out := t.out ++ List.replicate n (okOf [v]) } :=
      run_rdregs_of_serves (s := t) n hv rfl hwf hserves rfl
    _ = _ := by simp [t, given, hs, v, List.replicate_succ]

end Sys2Proof.Machine
end

section
/-! PROOFS. Exceptions (60_exceptions.md): the transport that never answers (R167). -/

namespace Sys2Proof.Machine

open Sys2Proof

/-- Settles O9: in both waiting phases the step asks first whether anything is to come, and with nothing it never
reaches the wait for the answer. -/
theorem silentTransportLeavesBlockStuck : Obligations.SilentTransportLeavesBlockStuck := by
  intro s hv hi hs
  rcases hs with ⟨reg, k, hs⟩ | ⟨job, hs⟩
  · simp only [step_valid hv, phaseStep, hs, if_pos hi]
  · simp only [step_valid hv, phaseStep, hs, if_pos hi]

end Sys2Proof.Machine
end

section
/-! PROOFS. Reset (70_reset_and_hazards.md): what the step that takes a reset leaves (R180, R182). -/

namespace Sys2Proof.Machine

open Sys2Proof

/-- The step of an idle block with a reset next takes it off the inputs and resets the block (R180). -/
theorem step_reset {s : State} {rest : List Input} (hv : validCfg s.cfg = true) (hs : s.seq = .idle)
    (hi : s.inputs = .reset :: rest) : step s = .next (resetBlock { s with inputs := rest }) := by
  simp only [step_valid hv, phaseStep, hs, idleStep, hi]

/-- Every slot of a reset block is unpopulated, whatever the slots held (R24, R180). -/
theorem resetBlock_slot {s : State} {i : Nat} (hi : i < s.cfg.memo.length) :
    (resetBlock s).memo[i]? = some Slot.unpopulated := by
  rw [resetBlock_memo, List.getElem?_replicate_of_lt hi]

/-- Settles O11: the step is `resetBlock` on the inputs that remain, which keeps all but the slots. -/
theorem resetEmptiesEverySlot : Obligations.ResetEmptiesEverySlot := by
  intro s rest hv hs hi
  refine ⟨resetBlock { s with inputs := rest }, step_reset hv hs hi, resetBlock_cfg _, resetBlock_seq _,
    resetBlock_inputs _, resetBlock_out _, ?_, fun i h => resetBlock_slot h⟩
  rw [resetBlock_memo, List.length_replicate]

end Sys2Proof.Machine
end
